-- ==== Sys2Proof/Word.lean ====
section
/-! DEFINITION. The widths the spec gives its values (00_scope R8: every value is an unsigned bit vector of a stated width). -/

namespace Sys2Proof

/-- A 32-bit word (R8). -/
abbrev Word := BitVec 32

/-- A byte (R8). -/
abbrev Byte := BitVec 8

/-- A command word, `CMD_WIDTH` = 44 bits (30_encoding R61). -/
abbrev CmdWord := BitVec 44

/-- A response word, `RSP_WIDTH` = 35 bits (30_encoding R63). -/
abbrev RspWord := BitVec 35

/-- The sequencer word `SEQ`, 10 bits (30_encoding R67). -/
abbrev SeqWord := BitVec 10

end Sys2Proof
end

