-- ==== Sys2Proof/Machine/Datapath.lean ====
section
/-! DEFINITION. The combinational units of the engine (40_datapath_functions): rotator, boolean function mux, constant
select, adders, byte assembler. Each is a pure, total function of its operands (R90). -/

namespace Sys2Proof.Machine

/-- `ROTL(x, n)` for 0 ≤ n ≤ 31 (R80); at n = 0 the right shift by 32 gives 0, so the result is `x`. -/
def rotl (x : Word) (n : Nat) : Word := (x <<< n) ||| (x >>> (32 - n))

/-- `CH(x, y, z)`, the document's `choose` (R81). -/
def ch (x y z : Word) : Word := z ^^^ (x &&& (y ^^^ z))

/-- `PAR(x, y, z)`, the document's `parity` (R82). -/
def par (x y z : Word) : Word := x ^^^ y ^^^ z

/-- `MAJ(x, y, z)`, the document's `majority` (R83). -/
def maj (x y z : Word) : Word := (x &&& y) ^^^ (x &&& z) ^^^ (y &&& z)

/-- `GROUP(t) = t div 20` (R84). -/
def group (t : Fin 80) : Fin 4 := ⟨t.val / 20, by omega⟩

/-- `FSEL(g, x, y, z)`, the boolean function mux (R85). -/
def fsel (g : Fin 4) (x y z : Word) : Word :=
  match g with
  | 0 => ch x y z
  | 1 => par x y z
  | 2 => maj x y z
  | 3 => par x y z

/-- The round constant table `K[0..3]` (10_state R18), read-only. -/
def roundConstants : Vector Word 4 := #v[0x5A827999, 0x6ED9EBA1, 0x8F1BBCDC, 0xCA62C1D6]

/-- `KSEL(g) = K[g]` (R86). -/
def ksel (g : Fin 4) : Word := roundConstants[g]

/-- `ADD32(p, q)`: wrapping addition (R87). -/
def add32 (p q : Word) : Word := p + q

/-- `ADD5(p, q, r, s, u)`: wrapping addition of five words (R87). -/
def add5 (p q r s u : Word) : Word := p + q + r + s + u

/-- `BE32(b0, b1, b2, b3)`: byte 0 is the most significant (R88). -/
def be32 (b0 b1 b2 b3 : Byte) : Word :=
  (b0.setWidth 32 <<< 24) ||| (b1.setWidth 32 <<< 16) ||| (b2.setWidth 32 <<< 8) ||| b3.setWidth 32

end Sys2Proof.Machine
end

