-- ==== Sys2Proof/Machine/Operands.lean ====
section
/-! DEFINITION. Operand assembly (30_encoding R64): `idx` and `data` are unsigned numbers exactly as they stand in the word,
and a field a command does not use must be zero. Each function answers the checked operand, or none where the operand breaks
its row of R64 (the command then faults with BAD_OPERAND, 60 R172). -/

namespace Sys2Proof.Machine

/-- NOP and START take no operand: `idx = 0` and `data = 0`. -/
def noOperands (idx : BitVec 8) (data : Word) : Bool := decide (idx = 0) && decide (data = 0)

/-- WRH: `idx <= 4`, any `data`. -/
def stateIndex (idx : BitVec 8) : Option (Fin 5) :=
  if h : idx.toNat < 5 then some ⟨idx.toNat, h⟩ else none

/-- RDH: `idx <= 4` and `data = 0`. -/
def readIndex (idx : BitVec 8) (data : Word) : Option (Fin 5) :=
  if data = 0 then stateIndex idx else none

/-- `idx <= 63`, the index of a block byte. -/
def byteIndex (idx : BitVec 8) : Option (Fin 64) :=
  if h : idx.toNat < 64 then some ⟨idx.toNat, h⟩ else none

/-- WRB: `idx <= 63` and `data[31:8] = 0`; the byte is `data[7:0]`. -/
def byteOperands (idx : BitVec 8) (data : Word) : Option (Fin 64 × Byte) :=
  match byteIndex idx with
  | none => none
  | some n => if data.toNat ≤ 0xFF then some (n, data.setWidth 8) else none

/-- WRW: `idx <= 15`, any `data`. -/
def wordIndex (idx : BitVec 8) : Option (Fin 16) :=
  if h : idx.toNat < 16 then some ⟨idx.toNat, h⟩ else none

/-- SCHED occurs at `t` in 16..79 (30 R67). -/
def schedIndex (t : BitVec 7) : Option (Fin 80) :=
  if h : t.toNat < 80 then if 16 ≤ t.toNat then some ⟨t.toNat, h⟩ else none else none

/-- The ROUND micro-operation of group `g` occurs at `t` in 0..79 with `t div 20 = g` (30 R67, R68). -/
def roundIndex (g : Fin 4) (t : BitVec 7) : Option (Fin 80) :=
  if h : t.toNat < 80 then if group ⟨t.toNat, h⟩ = g then some ⟨t.toNat, h⟩ else none else none

end Sys2Proof.Machine
end

