-- ==== Sys2Proof/Syntax.lean ====
section
/-! DEFINITION. The sixteen operations of spec/opcode_table.json, one constructor a row: eight rows of host command words
(format CMD44, 30_encoding R61, R62) and eight engine micro-operations (format SEQ10, R67). -/

namespace Sys2Proof

/-- An operation of the engine, with every bit its row's mask leaves open: a command's `idx` and `data` (and, in a reserved
row, its `op`), and the step index `t` of a micro-operation that occurs at more than one `t`. -/
inductive Instr where
  /-- NOP (44 R151). -/
  | nop (idx : BitVec 8) (data : Word)
  /-- WRH: write one state word (44 R152). -/
  | wrh (idx : BitVec 8) (data : Word)
  /-- RDH: read one state word (44 R153). -/
  | rdh (idx : BitVec 8) (data : Word)
  /-- WRB: write one block byte (44 R154). -/
  | wrb (idx : BitVec 8) (data : Word)
  /-- WRW: write four block bytes (44 R155). -/
  | wrw (idx : BitVec 8) (data : Word)
  /-- START: compress the block in the buffer (44 R156). -/
  | start (idx : BitVec 8) (data : Word)
  /-- RSVD_6_7: the reserved opcodes 6 and 7 (44 R157). -/
  | rsvd67 (op : BitVec 4) (idx : BitVec 8) (data : Word)
  /-- RSVD_8_F: the reserved opcodes 8 to F (44 R157). -/
  | rsvd8F (op : BitVec 4) (idx : BitVec 8) (data : Word)
  /-- PARSE (41 R100). -/
  | parse
  /-- SCHED at index `t` (41 R101). -/
  | sched (t : BitVec 7)
  /-- SEED (42 R110). -/
  | seed
  /-- ROUND.CH at index `t` (42 R112). -/
  | roundCh (t : BitVec 7)
  /-- ROUND.PAR1 at index `t` (42 R113). -/
  | roundPar1 (t : BitVec 7)
  /-- ROUND.MAJ at index `t` (42 R114). -/
  | roundMaj (t : BitVec 7)
  /-- ROUND.PAR3 at index `t` (42 R115). -/
  | roundPar3 (t : BitVec 7)
  /-- FOLD (42 R116). -/
  | fold
  deriving DecidableEq, Repr

end Sys2Proof
end

