-- ==== Sys2Proof/WellFormed.lean ====
section
/-! DEFINITION. Which terms of Instr are rows of the opcode table: a reserved row's `op` lies in its row's range (30_encoding
R72) and a micro-operation's `t` in its row's `t_range` (R67, R72). A command whose operands break R64 is well formed: it is
still that command, and it faults with BAD_OPERAND (R72). -/

namespace Sys2Proof

/-- Whether `t` lies in the row's `t_range`, bounds inclusive. -/
def tInRange (lo hi : Nat) (t : BitVec 7) : Bool := decide (lo ≤ t.toNat) && decide (t.toNat ≤ hi)

/-- The term stands for at least one word of the opcode table. -/
def Instr.wellFormed : Instr → Bool
  | .nop _ _ => true
  | .wrh _ _ => true
  | .rdh _ _ => true
  | .wrb _ _ => true
  | .wrw _ _ => true
  | .start _ _ => true
  | .rsvd67 op _ _ => decide (op = 6) || decide (op = 7)
  | .rsvd8F op _ _ => decide (8 ≤ op.toNat)
  | .parse => true
  | .sched t => tInRange 16 79 t
  | .seed => true
  | .roundCh t => tInRange 0 19 t
  | .roundPar1 t => tInRange 20 39 t
  | .roundMaj t => tInRange 40 59 t
  | .roundPar3 t => tInRange 60 79 t
  | .fold => true

/-- `wellFormed` as a proposition. -/
abbrev Instr.WellFormed (i : Instr) : Prop := i.wellFormed = true

end Sys2Proof
end

