-- ==== Sys2Proof/Decode.lean ====
section
/-! DEFINITION. Decoding and encoding of both formats of spec/opcode_table.json (30_encoding R61, R62, R67, R72), and the
table itself. -/

namespace Sys2Proof

/-- A word of one of the table's two formats. -/
inductive Code where
  /-- Format CMD44: a command word (R61). -/
  | cmd (w : CmdWord)
  /-- Format SEQ10: a sequencer word (R67). -/
  | seq (w : SeqWord)
  deriving DecidableEq, Repr

/-- Why a sequencer word selects no micro-operation. -/
inductive DecodeError where
  /-- `(IDLE, 0)`: the engine does nothing and the host may present a command (R67, first row). -/
  | idle
  /-- A value of `SEQ` outside R67's table: "unreachable ... and has no meaning". -/
  | noMicroOp
  deriving DecidableEq, Repr

/-- `cmd[43:40]` (R61). -/
def cmdOp (w : CmdWord) : BitVec 4 := w.extractLsb' 40 4

/-- `cmd[39:32]` (R61). -/
def cmdIdx (w : CmdWord) : BitVec 8 := w.extractLsb' 32 8

/-- `cmd[31:0]` (R61). -/
def cmdData (w : CmdWord) : Word := w.extractLsb' 0 32

/-- `SEQ[9:7]` (R67). -/
def seqPhase (w : SeqWord) : BitVec 3 := w.extractLsb' 7 3

/-- `SEQ[6:0]` (R67). -/
def seqT (w : SeqWord) : BitVec 7 := w.extractLsb' 0 7

/-- The opcode map: a command word decodes by `op` alone, and every word decodes (R62). -/
def decodeCmd (w : CmdWord) : Instr :=
  if cmdOp w = 0 then .nop (cmdIdx w) (cmdData w)
  else if cmdOp w = 1 then .wrh (cmdIdx w) (cmdData w)
  else if cmdOp w = 2 then .rdh (cmdIdx w) (cmdData w)
  else if cmdOp w = 3 then .wrb (cmdIdx w) (cmdData w)
  else if cmdOp w = 4 then .wrw (cmdIdx w) (cmdData w)
  else if cmdOp w = 5 then .start (cmdIdx w) (cmdData w)
  else if cmdOp w = 6 ∨ cmdOp w = 7 then .rsvd67 (cmdOp w) (cmdIdx w) (cmdData w)
  else .rsvd8F (cmdOp w) (cmdIdx w) (cmdData w)

/-- The micro-operation at `(phase, t)` (R67's table, row by row). -/
def decodeSeqFields (phase : BitVec 3) (t : BitVec 7) : Except DecodeError Instr :=
  if phase = 0 then if t = 0 then .error .idle else .error .noMicroOp
  else if phase = 1 then if t = 0 then .ok .parse else .error .noMicroOp
  else if phase = 2 then if tInRange 16 79 t then .ok (.sched t) else .error .noMicroOp
  else if phase = 3 then if t = 0 then .ok .seed else .error .noMicroOp
  else if phase = 4 then
    if tInRange 0 19 t then .ok (.roundCh t)
    else if tInRange 20 39 t then .ok (.roundPar1 t)
    else if tInRange 40 59 t then .ok (.roundMaj t)
    else if tInRange 60 79 t then .ok (.roundPar3 t)
    else .error .noMicroOp
  else if phase = 5 then if t = 0 then .ok .fold else .error .noMicroOp
  else .error .noMicroOp

/-- A sequencer word selects a micro-operation, or none (R67). -/
def decodeSeq (w : SeqWord) : Except DecodeError Instr := decodeSeqFields (seqPhase w) (seqT w)

/-- Decoding, total on the words of both formats. -/
def decode : Code → Except DecodeError Instr
  | .cmd w => .ok (decodeCmd w)
  | .seq w => decodeSeq w

/-- `cmd = (op << 40) | (idx << 32) | data` (R61). -/
def encodeCmd (op : BitVec 4) (idx : BitVec 8) (data : Word) : Code := .cmd (op ++ idx ++ data)

/-- `SEQ = {phase, t}` (R67). -/
def encodeSeq (phase : BitVec 3) (t : BitVec 7) : Code := .seq (phase ++ t)

/-- The word of an operation (R61, R62, R67). -/
def encode : Instr → Code
  | .nop idx data => encodeCmd 0 idx data
  | .wrh idx data => encodeCmd 1 idx data
  | .rdh idx data => encodeCmd 2 idx data
  | .wrb idx data => encodeCmd 3 idx data
  | .wrw idx data => encodeCmd 4 idx data
  | .start idx data => encodeCmd 5 idx data
  | .rsvd67 op idx data => encodeCmd op idx data
  | .rsvd8F op idx data => encodeCmd op idx data
  | .parse => encodeSeq 1 0
  | .sched t => encodeSeq 2 t
  | .seed => encodeSeq 3 0
  | .roundCh t => encodeSeq 4 t
  | .roundPar1 t => encodeSeq 4 t
  | .roundMaj t => encodeSeq 4 t
  | .roundPar3 t => encodeSeq 4 t
  | .fold => encodeSeq 5 0

/-- A row of spec/opcode_table.json: its mask and its match value, and for SEQ10 its `t_range` (R72). -/
inductive Row where
  | cmd (mnemonic : String) (mask value : CmdWord)
  | seq (mnemonic : String) (mask value : SeqWord) (tLo tHi : Nat)
  deriving DecidableEq, Repr

/-- "A word `w` is that command when `w & mask = match`"; the ROUND rows are told apart by `t_range` (R72). -/
def Row.covers : Row → Code → Bool
  | .cmd _ mask value, .cmd w => decide (w &&& mask = value)
  | .seq _ mask value lo hi, .seq w => decide (w &&& mask = value) && tInRange lo hi (seqT w)
  | .cmd _ _ _, .seq _ => false
  | .seq _ _ _ _ _, .cmd _ => false

/-- The row of an operation, as spec/opcode_table.json prints it. -/
def rowOf : Instr → Row
  | .nop _ _ => .cmd "NOP" 0xF0000000000 0x00000000000
  | .wrh _ _ => .cmd "WRH" 0xF0000000000 0x10000000000
  | .rdh _ _ => .cmd "RDH" 0xF0000000000 0x20000000000
  | .wrb _ _ => .cmd "WRB" 0xF0000000000 0x30000000000
  | .wrw _ _ => .cmd "WRW" 0xF0000000000 0x40000000000
  | .start _ _ => .cmd "START" 0xF0000000000 0x50000000000
  | .rsvd67 _ _ _ => .cmd "RSVD_6_7" 0xE0000000000 0x60000000000
  | .rsvd8F _ _ _ => .cmd "RSVD_8_F" 0x80000000000 0x80000000000
  | .parse => .seq "PARSE" 0x380 0x080 0 0
  | .sched _ => .seq "SCHED" 0x380 0x100 16 79
  | .seed => .seq "SEED" 0x380 0x180 0 0
  | .roundCh _ => .seq "ROUND.CH" 0x380 0x200 0 19
  | .roundPar1 _ => .seq "ROUND.PAR1" 0x380 0x200 20 39
  | .roundMaj _ => .seq "ROUND.MAJ" 0x380 0x200 40 59
  | .roundPar3 _ => .seq "ROUND.PAR3" 0x380 0x200 60 79
  | .fold => .seq "FOLD" 0x380 0x280 0 0

/-- The whole table, in its order (R72). -/
def opcodeTable : List Row :=
  [rowOf (.nop 0 0), rowOf (.wrh 0 0), rowOf (.rdh 0 0), rowOf (.wrb 0 0), rowOf (.wrw 0 0), rowOf (.start 0 0),
   rowOf (.rsvd67 6 0 0), rowOf (.rsvd8F 8 0 0)] ++
  [rowOf .parse, rowOf (.sched 16), rowOf .seed, rowOf (.roundCh 0), rowOf (.roundPar1 20), rowOf (.roundMaj 40),
   rowOf (.roundPar3 60), rowOf .fold]

/-- The word of `nbits` bits numbered as the table numbers it: a row of at most 16 bits is a sequencer word, a wider one a
command word; bits above the format's width are no word of it (notes/assumptions/18.md). -/
def tableCode (nbits w : Nat) : Option Code :=
  if nbits ≤ 16 then if w < 2 ^ 10 then some (.seq (BitVec.ofNat 10 w)) else none
  else if w < 2 ^ 44 then some (.cmd (BitVec.ofNat 44 w)) else none

/-- The operation the decoder reads from a table row's word. -/
def decodeTableWord (nbits w : Nat) : Option Instr :=
  match tableCode nbits w with
  | none => none
  | some c =>
    match decode c with
    | .ok i => some i
    | .error _ => none

end Sys2Proof
end

