-- ==== Sys2Proof/Machine/State.lean ====
section
/-! DEFINITION. The engine's state (10_state, every entry of its section 1 but the constant table, which is
Datapath.roundConstants), the host's side of the command port, and the state after reset. -/

namespace Sys2Proof.Machine

/-- The sequencer's phase (10_state R20). Codes 6 and 7 are unreachable and are made unrepresentable, as
92_eei_decisions D25 advises (notes/assumptions/12.md). -/
inductive Phase where
  | idle
  | parse
  | sched
  | seed
  | round
  | fold
  deriving DecidableEq, Repr

/-- The fault causes, with the absence of one (60 R170). Codes 5 to 7 are never produced and are made unrepresentable
(D25; notes/assumptions/12.md). -/
inductive Cause where
  | noFault
  | illegalOp
  | badOperand
  | stateUninit
  | blockIncomplete
  deriving DecidableEq, Repr

/-- The block buffer's bytes: a list of (address, byte), addresses strictly rising, no entry equal to what an unlisted
address reads as (Ops.lean `Memory.wf`; notes/assumptions/17.md). -/
abbrev Memory := List Host.Cell

/-- The engine, and the host's side of its port. The names are the spec's. -/
structure State where
  /-- The state words `H[0..4]` (R10, R11). -/
  H : Vector Word 5
  /-- The valid bits of `H` (R12). -/
  HV : BitVec 5
  /-- The block buffer `B[0..63]` (R13). -/
  B : Memory
  /-- The valid bits of `B` (R15). -/
  BV : BitVec 64
  /-- The message schedule `W[0..79]` (R16). -/
  W : Vector Word 80
  /-- Working register `a` (R17). -/
  a : Word
  /-- Working register `b` (R17). -/
  b : Word
  /-- Working register `c` (R17). -/
  c : Word
  /-- Working register `d` (R17). -/
  d : Word
  /-- Working register `e` (R17). -/
  e : Word
  /-- The sequencer's phase (R20). -/
  phase : Phase
  /-- The sequencer's step index (R21). -/
  t : BitVec 7
  /-- `FAULT`: the first fault cause since reset, sticky (R22). -/
  fault : Cause
  /-- The commands the host has still to present, in order (70 R198); the head is on the port `cmd` with `cmd_valid` = 1
  (30 R60). The host's, not the engine's: the engine has no queue of commands (44 R150; notes/assumptions/1.md). -/
  host : List CmdWord
  /-- The responses given so far, oldest first (30 R63, 70 R198; notes/assumptions/3.md). -/
  responses : List RspWord
  deriving DecidableEq, Repr

/-- Reasons a step could stop the machine for good. There is none: the engine's own faults are recorded and the engine goes on
(60 R176, R177), and no micro-operation faults (R170). -/
inductive Fault where
  deriving DecidableEq, Repr

/-- Reasons a step or an operation is given no meaning. -/
inductive Refusal where
  /-- An instruction without a meaning yet. Raised by no arm: every instruction has its meaning. Safe. -/
  | notModelled (mnemonic : String)
  /-- A sequencer value or a micro-operation index outside R67's table, "unreachable ... and has no meaning". Raised by `step`
  in a state whose (phase, t) is outside the table, and by the meaning of SCHED or a ROUND at a `t` outside its row's range.
  Safe: the model stops where the spec gives no step (93 U11). -/
  | noMicroOp
  deriving DecidableEq, Repr

/-- The machine right after reset (10_state R27, 70 R190), with no command presented and no response given. The words of
`H`, `W` and `a` to `e` and the bytes of `B` have no value in the spec; the zeros here are DESIGN CHOICES
(notes/assumptions/5.md, 6.md, 7.md). -/
def State.reset : State where
  H := Vector.replicate 5 0
  HV := 0
  B := []
  BV := 0
  W := Vector.replicate 80 0
  a := 0
  b := 0
  c := 0
  d := 0
  e := 0
  phase := .idle
  t := 0
  fault := .noFault
  host := []
  responses := []

end Sys2Proof.Machine
end

