-- ==== Sys2Proof/Machine/Flags.lean ====
section
/-! DEFINITION. Status (10_state R22 to R24). There are no condition codes: no operation produces a carry, overflow, zero or
sign flag (R23). The status bits are `HV`, `BV`, `FAULT` and the outputs derived from the phase. -/

namespace Sys2Proof.Machine

/-- The 3-bit code of a phase (R20). -/
def Phase.code : Phase → BitVec 3
  | .idle => 0
  | .parse => 1
  | .sched => 2
  | .seed => 3
  | .round => 4
  | .fold => 5

/-- The phase of a 3-bit code; 6 and 7 are no phase (R20). -/
def Phase.ofCode (c : BitVec 3) : Option Phase :=
  if c = 0 then some .idle
  else if c = 1 then some .parse
  else if c = 2 then some .sched
  else if c = 3 then some .seed
  else if c = 4 then some .round
  else if c = 5 then some .fold
  else none

/-- The 3-bit code of a fault cause (60 R170). -/
def Cause.code : Cause → BitVec 3
  | .noFault => 0
  | .illegalOp => 1
  | .badOperand => 2
  | .stateUninit => 3
  | .blockIncomplete => 4

/-- `HV` with all five bits set, `0b11111`. -/
def fullHV : BitVec 5 := 0b11111

/-- `BV` with all 64 bits set. -/
def fullBV : BitVec 64 := 0xFFFFFFFFFFFFFFFF

/-- `valid(H[i])` (R12). -/
def State.validH (s : State) (i : Fin 5) : Bool := s.HV.getLsbD i.val

/-- `valid(B[n])` (R15). -/
def State.validB (s : State) (n : Fin 64) : Bool := s.BV.getLsbD n.val

/-- All five state words have been written: `HV = 0b11111` (R12). -/
def State.allValidH (s : State) : Bool := decide (s.HV = fullHV)

/-- All 64 block bytes have been written: `BV` is all ones (R15). -/
def State.allValidB (s : State) : Bool := decide (s.BV = fullBV)

/-- The output `busy`: 1 exactly when `phase != IDLE` (30 R60). -/
def State.busy (s : State) : Bool := decide (s.phase ≠ .idle)

/-- The output `cmd_ready`: 1 exactly when `phase = IDLE` (30 R60). -/
def State.cmdReady (s : State) : Bool := decide (s.phase = .idle)

/-- The output `fault[2:0]` (30 R60, 10_state R22). -/
def State.faultOut (s : State) : BitVec 3 := s.fault.code

/-- The input `cmd_valid` with `cmd`: the command the host presents, if any (30 R60). -/
def State.cmdPort (s : State) : Option CmdWord := s.host.head?

/-- The output `rsp`: the last response given, if any (30 R60; how long `rsp_valid` stays up is not modelled,
notes/assumptions/3.md). -/
def State.rspPort (s : State) : Option RspWord := s.responses.getLast?

/-- What `FAULT` becomes when a command faults with cause `c`: the first cause since reset sticks (60 R176). -/
def Cause.sticky (old c : Cause) : Cause := if old = .noFault then c else old

end Sys2Proof.Machine
end

