-- ==== Sys2Proof/Machine/Ops.lean ====
section
/-! DEFINITION. The named operations over the block buffer and the registers; giving a response; raising a fault (the engine's
one kind of exception); which operation the machine performs next; reset. -/

namespace Sys2Proof.Machine

/-- What a byte of the block buffer that is not listed reads as: DESIGN CHOICE, 0x00, since the spec gives such a byte no value
and lets no operation read it (10_state R15; notes/assumptions/6.md). -/
def Memory.unlisted : Byte := 0

/-- The byte at an address. -/
def Memory.read : Memory → Nat → Byte
  | [], _ => Memory.unlisted
  | (k, v) :: m, n => if k = n then v else Memory.read m n

/-- `v` stored at address `n`, in canonical form. -/
def Memory.write : Memory → Nat → Byte → Memory
  | [], n, v => if v = Memory.unlisted then [] else [(n, v)]
  | (k, u) :: m, n, v =>
    if n < k then if v = Memory.unlisted then (k, u) :: m else (n, v) :: (k, u) :: m
    else if n = k then if v = Memory.unlisted then m else (n, v) :: m
    else (k, u) :: Memory.write m n v

/-- Every address is at least `lo` and below 64, addresses rise strictly, and no entry holds the unlisted byte. -/
def Memory.wfFrom : Nat → Memory → Bool
  | _, [] => true
  | lo, (k, v) :: m =>
    decide (lo ≤ k) && decide (k < 64) && decide (v ≠ Memory.unlisted) && Memory.wfFrom (k + 1) m

/-- The canonical form of the block buffer (notes/assumptions/17.md). -/
def Memory.wf (m : Memory) : Bool := Memory.wfFrom 0 m

/-- `B[n]`. -/
def State.readByte (s : State) (n : Fin 64) : Byte := s.B.read n.val

/-- `MemWrite(n, 1, [v])`: `B[n] <- v; BV[n] <- 1` (00_scope R9). -/
def State.writeByte (s : State) (n : Fin 64) (v : Byte) : State :=
  { s with B := s.B.write n.val v, BV := s.BV ||| BitVec.twoPow 64 n.val }

/-- The address `4j + k` of byte `k` of block word `j` (20_memory R41). -/
def byteOfWord (j : Fin 16) (k : Fin 4) : Fin 64 := ⟨4 * j.val + k.val, by omega⟩

/-- `BE32(MemRead(4j, 4))`: block word `j`, big-endian (20_memory R41). -/
def State.readWord (s : State) (j : Fin 16) : Word :=
  be32 (s.readByte (byteOfWord j 0)) (s.readByte (byteOfWord j 1)) (s.readByte (byteOfWord j 2))
    (s.readByte (byteOfWord j 3))

/-- `MemWrite(4j, 4, [v[31:24], v[23:16], v[15:8], v[7:0]])` (20_memory R43). -/
def State.writeWord (s : State) (j : Fin 16) (v : Word) : State :=
  (((s.writeByte (byteOfWord j 0) (v.extractLsb' 24 8)).writeByte (byteOfWord j 1) (v.extractLsb' 16 8)).writeByte
    (byteOfWord j 2) (v.extractLsb' 8 8)).writeByte (byteOfWord j 3) (v.extractLsb' 0 8)

/-- `H[i]`. -/
def State.readH (s : State) (i : Fin 5) : Word := s.H[i]

/-- `H[i] <- v; HV[i] <- 1` (44 R152). -/
def State.writeH (s : State) (i : Fin 5) (v : Word) : State :=
  { s with H := s.H.set i.val v, HV := s.HV ||| BitVec.twoPow 5 i.val }

/-- The five state words at once, as FOLD writes them (42 R116). -/
def State.setH (s : State) (h : Vector Word 5) : State := { s with H := h }

/-- The message schedule (41 R100, R101). -/
def State.setW (s : State) (w : Vector Word 80) : State := { s with W := w }

/-- `BV <- 0`: the block is consumed (41 R100). -/
def State.clearBV (s : State) : State := { s with BV := 0 }

/-- The five working registers at once (42 R110, R111). -/
def State.setRegs (s : State) (a b c d e : Word) : State := { s with a := a, b := b, c := c, d := d, e := e }

/-- `phase <- p; t <- n` (00_scope R9). -/
def State.enter (s : State) (p : Phase) (n : BitVec 7) : State := { s with phase := p, t := n }

/-- `if t = 79 then (phase <- leave; t <- 0) else (t <- t + 1)`, in phase `stay` (41 R101, 42 R111). -/
def State.advance (s : State) (t : Fin 80) (stay leave : Phase) : State :=
  if t.val = 79 then s.enter leave 0 else s.enter stay (BitVec.ofNat 7 (t.val + 1))

/-- The response word `{cause, rdata}` (30 R63). -/
def response (c : Cause) (rdata : Word) : RspWord := c.code ++ rdata

/-- `respond(cause, rdata)`: one response is given (00_scope R9, 30 R63). -/
def State.respond (s : State) (c : Cause) (rdata : Word) : State :=
  { s with responses := s.responses ++ [response c rdata] }

/-- `FAULT <- c` if it was 0 (60 R176). -/
def State.recordFault (s : State) (c : Cause) : State := { s with fault := s.fault.sticky c }

/-- Fault entry (60 R176): the first cause sticks, the response carries this command's cause and no data, nothing else
changes, and the engine goes on (R177: there is no handler and nothing to return to). -/
def raiseFault (c : Cause) (s : State) : Host.Outcome State Fault Refusal :=
  .next ((s.recordFault c).respond c 0)

/-- A command was performed: `respond(0, rdata)` (44 R158, step 5). -/
def done (s : State) (rdata : Word) : Host.Outcome State Fault Refusal := .next (s.respond .noFault rdata)

/-- The sequencer word `SEQ = {phase, t}` (30 R67). -/
def State.seqWord (s : State) : SeqWord := s.phase.code ++ s.t

/-- What happens next. -/
inductive Selected where
  /-- The engine is idle and accepts the command the host presents (44 R150). -/
  | command (w : CmdWord)
  /-- The engine performs a micro-operation (30 R67). -/
  | micro (i : Instr)
  /-- The engine is idle and no command is presented: the run is over (70 R198). -/
  | waiting
  /-- `SEQ` is outside R67's table. -/
  | nothing
  deriving DecidableEq, Repr

/-- Which agent steps, and with what (00_scope R7): a function of `SEQ`, and in IDLE of the command port. -/
def State.select (s : State) : Selected :=
  match decodeSeq s.seqWord with
  | .ok i => .micro i
  | .error .noMicroOp => .nothing
  | .error .idle =>
    match s.host with
    | [] => .waiting
    | w :: _ => .command w

/-- The command on the port has been accepted: the host goes on to its next one (44 R150). -/
def State.takeCommand (s : State) : State := { s with host := s.host.tail }

/-- The state in which the next step performs the operation of the word `c`: a command word is presented by the host to an
idle engine, a sequencer word is put into the sequencer (notes/assumptions/2.md). -/
def State.place (s : State) : Code → State
  | .cmd w => { s with phase := .idle, t := 0, host := w :: s.host }
  | .seq w =>
    match Phase.ofCode (seqPhase w) with
    | some p => s.enter p (seqT w)
    | none => s

/-- The reset event (70 R190), which is outside the step relation (00_scope R7). What reset leaves in `H`, `B`, `W` and `a`
to `e` is unspecified (10_state R27): it is taken from `left`, which nothing constrains (notes/assumptions/13.md). The host
and the responses already given are not the engine's. -/
def State.assertRst (left s : State) : State :=
  { left with HV := 0, BV := 0, phase := .idle, t := 0, fault := .noFault, host := s.host, responses := s.responses }

end Sys2Proof.Machine
end

