-- ==== Sys2Proof/Machine/HostCommands.lean ====
section
/-! DEFINITION. The meanings of the eight command rows (44_host_commands). A meaning is the effect of the command once it is
accepted; `step` accepts one only in IDLE (R150; notes/assumptions/9.md). The order of checks is R158's. -/

namespace Sys2Proof.Machine

/-- NOP (R151). -/
def execNop (idx : BitVec 8) (data : Word) (s : State) : Host.Outcome State Fault Refusal :=
  if noOperands idx data then done s 0 else raiseFault .badOperand s

/-- WRH i, v (R152). -/
def execWrh (idx : BitVec 8) (data : Word) (s : State) : Host.Outcome State Fault Refusal :=
  match stateIndex idx with
  | none => raiseFault .badOperand s
  | some i => done (s.writeH i data) 0

/-- RDH i (R153). -/
def execRdh (idx : BitVec 8) (data : Word) (s : State) : Host.Outcome State Fault Refusal :=
  match readIndex idx data with
  | none => raiseFault .badOperand s
  | some i => if s.validH i then done s (s.readH i) else raiseFault .stateUninit s

/-- WRB n, v (R154). -/
def execWrb (idx : BitVec 8) (data : Word) (s : State) : Host.Outcome State Fault Refusal :=
  match byteOperands idx data with
  | none => raiseFault .badOperand s
  | some (n, v) => done (s.writeByte n v) 0

/-- WRW j, v (R155). -/
def execWrw (idx : BitVec 8) (data : Word) (s : State) : Host.Outcome State Fault Refusal :=
  match wordIndex idx with
  | none => raiseFault .badOperand s
  | some j => done (s.writeWord j data) 0

/-- START (R156): the response is given at acceptance; the block is the 147 engine steps that follow. -/
def execStart (idx : BitVec 8) (data : Word) (s : State) : Host.Outcome State Fault Refusal :=
  if noOperands idx data then
    if s.allValidH then
      if s.allValidB then done (s.enter .parse 0) 0 else raiseFault .blockIncomplete s
    else raiseFault .stateUninit s
  else raiseFault .badOperand s

/-- RSVD_6_7 (R157): `idx` and `data` are not examined. -/
def execRsvd67 (s : State) : Host.Outcome State Fault Refusal := raiseFault .illegalOp s

/-- RSVD_8_F (R157): `idx` and `data` are not examined. -/
def execRsvd8F (s : State) : Host.Outcome State Fault Refusal := raiseFault .illegalOp s

end Sys2Proof.Machine
end

