-- ==== Sys2Proof/Machine/Round.lean ====
section
/-! DEFINITION. The round datapath (42_round): SEED, the four ROUND micro-operations, FOLD. -/

namespace Sys2Proof.Machine

/-- SEED (R110). -/
def execSeed (s : State) : Host.Outcome State Fault Refusal :=
  .next ((s.setRegs s.H[0] s.H[1] s.H[2] s.H[3] s.H[4]).enter .round 0)

/-- `temp` of the round step: `ADD5(ROTL(a, 5), FSEL(g, b, c, d), e, K[g], W[t])` (R111). -/
def State.roundTemp (s : State) (g : Fin 4) (t : Fin 80) : Word :=
  add5 (rotl s.a 5) (fsel g s.b s.c s.d) s.e (ksel g) s.W[t]

/-- `ROUNDSTEP(g)` at index `t` (R111); every right-hand side is the value before the step. -/
def State.roundStep (s : State) (g : Fin 4) (t : Fin 80) : State :=
  (s.setRegs (s.roundTemp g t) s.a (rotl s.b 30) s.c s.d).advance t .round .fold

/-- The ROUND micro-operation of group `g` at index `t` (R111, 30 R67). -/
def roundAt (g : Fin 4) (t : BitVec 7) (s : State) : Host.Outcome State Fault Refusal :=
  match roundIndex g t with
  | none => .refused .noMicroOp
  | some n => .next (s.roundStep g n)

/-- ROUND.CH (R112). -/
def execRoundCh (t : BitVec 7) (s : State) : Host.Outcome State Fault Refusal := roundAt 0 t s

/-- ROUND.PAR1 (R113). -/
def execRoundPar1 (t : BitVec 7) (s : State) : Host.Outcome State Fault Refusal := roundAt 1 t s

/-- ROUND.MAJ (R114). -/
def execRoundMaj (t : BitVec 7) (s : State) : Host.Outcome State Fault Refusal := roundAt 2 t s

/-- ROUND.PAR3 (R115). -/
def execRoundPar3 (t : BitVec 7) (s : State) : Host.Outcome State Fault Refusal := roundAt 3 t s

/-- The five sums of FOLD, each wrapping by itself (R116). -/
def State.foldedH (s : State) : Vector Word 5 :=
  #v[add32 s.H[0] s.a, add32 s.H[1] s.b, add32 s.H[2] s.c, add32 s.H[3] s.d, add32 s.H[4] s.e]

/-- FOLD (R116). -/
def execFold (s : State) : Host.Outcome State Fault Refusal := .next ((s.setH s.foldedH).enter .idle 0)

end Sys2Proof.Machine
end

