-- ==== Sys2Proof/Machine/Schedule.lean ====
section
/-! DEFINITION. The message schedule expander (41_schedule): PARSE and SCHED. -/

namespace Sys2Proof.Machine

/-- `W[t - n]`; the taps 3, 8, 14, 16 lie in the array for `t` in 16..79 (R101). -/
def tap (w : Vector Word 80) (t : Fin 80) (n : Nat) : Word := w[t.val - n]'(by omega)

/-- `ROTL(W[t-3] ^ W[t-8] ^ W[t-14] ^ W[t-16], 1)` (R101). -/
def scheduleWord (w : Vector Word 80) (t : Fin 80) : Word :=
  rotl (tap w t 3 ^^^ tap w t 8 ^^^ tap w t 14 ^^^ tap w t 16) 1

/-- The schedule after PARSE: words 0 to 15 are the block's big-endian words, the others are not written (R100). -/
def State.parsedW (s : State) : Vector Word 80 :=
  Vector.ofFn fun k : Fin 80 => if h : k.val < 16 then s.readWord ⟨k.val, h⟩ else s.W[k]

/-- PARSE (R100). -/
def execParse (s : State) : Host.Outcome State Fault Refusal :=
  .next (((s.setW s.parsedW).clearBV).enter .sched 16)

/-- SCHED at index `t` (R101). -/
def execSched (t : BitVec 7) (s : State) : Host.Outcome State Fault Refusal :=
  match schedIndex t with
  | none => .refused .noMicroOp
  | some n => .next ((s.setW (s.W.set n.val (scheduleWord s.W n))).advance n .sched .seed)

end Sys2Proof.Machine
end

