-- ==== Sys2Proof/Machine/Dispatch.lean ====
section
/-! DEFINITION. The meaning of every row of the opcode table. -/

namespace Sys2Proof.Machine

def exec (i : Instr) (s : State) : Host.Outcome State Fault Refusal :=
  match i with
  | .nop idx data => Sys2Proof.Machine.execNop idx data s
  | .wrh idx data => Sys2Proof.Machine.execWrh idx data s
  | .rdh idx data => Sys2Proof.Machine.execRdh idx data s
  | .wrb idx data => Sys2Proof.Machine.execWrb idx data s
  | .wrw idx data => Sys2Proof.Machine.execWrw idx data s
  | .start idx data => Sys2Proof.Machine.execStart idx data s
  | .rsvd67 _ _ _ => Sys2Proof.Machine.execRsvd67 s
  | .rsvd8F _ _ _ => Sys2Proof.Machine.execRsvd8F s
  | .parse => Sys2Proof.Machine.execParse s
  | .sched t => Sys2Proof.Machine.execSched t s
  | .seed => Sys2Proof.Machine.execSeed s
  | .roundCh t => Sys2Proof.Machine.execRoundCh t s
  | .roundPar1 t => Sys2Proof.Machine.execRoundPar1 t s
  | .roundMaj t => Sys2Proof.Machine.execRoundMaj t s
  | .roundPar3 t => Sys2Proof.Machine.execRoundPar3 t s
  | .fold => Sys2Proof.Machine.execFold s

end Sys2Proof.Machine
end

