-- ==== Sys2Proof/Machine/Step.lean ====
section
/-! DEFINITION. One step of the machine: the host's, if the engine is idle, or the engine's (00_scope R7). -/

namespace Sys2Proof.Machine

/-- The one agent that is enabled takes its step (R7). In IDLE with no command presented the engine keeps all its state
(60 R182; notes/assumptions/4.md). -/
def step (s : State) : Host.Outcome State Fault Refusal :=
  match s.select with
  | .command w => exec (decodeCmd w) s.takeCommand
  | .micro i => exec i s
  | .waiting => .next s
  | .nothing => .refused .noMicroOp

/-- `n` steps, stopping at the first that gives no next state. -/
def stepN : Nat → State → Host.Outcome State Fault Refusal
  | 0, s => .next s
  | n + 1, s =>
    match step s with
    | .next u => stepN n u
    | .fault f => .fault f
    | .refused r => .refused r

/-- `s` with the operation of a table row's word placed where the next step performs it (notes/assumptions/2.md). -/
def State.withFetchWord (s : State) (nbits w : Nat) : State :=
  match tableCode nbits w with
  | none => s
  | some c => s.place c

end Sys2Proof.Machine
end

