-- ==== Sys2Proof/Machine/Pseudo.lean ====
section
/-! DEFINITION. The pseudo-commands (30_encoding R71): shorthand for lists of command words; the engine sees only the
expansion. -/

namespace Sys2Proof.Machine

/-- The command word `(op << 40) | (idx << 32) | data` (R61). -/
def commandWord (op : BitVec 4) (idx : Nat) (data : Word) : CmdWord := op ++ BitVec.ofNat 8 idx ++ data

/-- `LDSTATE`: `WRH i, vi` for i = 0, ..., 4. -/
def ldState (v : Vector Word 5) : List CmdWord := v.toList.zipIdx.map fun p => commandWord 1 p.2 p.1

/-- `RDSTATE`: `RDH i` for i = 0, ..., 4. -/
def rdState : List CmdWord := (List.range 5).map fun i => commandWord 2 i 0

/-- `LDBLKW`: `WRW j, wj` for j = 0, ..., 15. -/
def ldBlkW (w : Vector Word 16) : List CmdWord := w.toList.zipIdx.map fun p => commandWord 4 p.2 p.1

/-- `LDBLKB`: `WRB n, bn` for n = 0, ..., 63. -/
def ldBlkB (x : Vector Byte 64) : List CmdWord := x.toList.zipIdx.map fun p => commandWord 3 p.2 (p.1.setWidth 32)

/-- A block as the host loads it: by its 64 bytes, or by its 16 big-endian words. -/
inductive BlockLoad where
  | bytes (x : Vector Byte 64)
  | words (w : Vector Word 16)
  deriving DecidableEq, Repr

/-- The 64 bytes of the block, byte 0 the most significant of word 0 (20_memory R41). -/
def BlockLoad.block : BlockLoad → Vector Byte 64
  | .bytes x => x
  | .words w => Vector.ofFn fun n : Fin 64 => (w[n.val / 4]'(by omega)).extractLsb' (24 - 8 * (n.val % 4)) 8

/-- `LDBLKB` of the bytes, or the equal `LDBLKW` of the words. -/
def BlockLoad.commands : BlockLoad → List CmdWord
  | .bytes x => ldBlkB x
  | .words w => ldBlkW w

/-- `COMPRESS1 block`: the block, loaded in either form, then `START`. -/
def compress1Commands (b : BlockLoad) : List CmdWord := b.commands ++ [commandWord 5 0 0]

/-- `COMPRESS state, [block_1, ..., block_N]`. -/
def compressCommands (v : Vector Word 5) (bs : List BlockLoad) : List CmdWord :=
  ldState v ++ (bs.map compress1Commands).flatten ++ rdState

end Sys2Proof.Machine
end

