-- ==== Sys2Proof/Machine/Driver.lean ====
section
/-! DEFINITION. The reference functions of the compression driver (43_driver R130, R133), written over arrays and not over the
machine's state; the machine is compared with them. -/

namespace Sys2Proof.Machine

/-- The five working registers `(a, b, c, d, e)` of the reference function. -/
structure Regs where
  a : Word
  b : Word
  c : Word
  d : Word
  e : Word
  deriving DecidableEq, Repr

/-- R130 (a): `w[j] = BE32(X[4j], X[4j+1], X[4j+2], X[4j+3])` for j in 0..15. -/
def parseBlock (x : Vector Byte 64) : List Word :=
  (List.range 16).map fun j =>
    be32 (x.getD (4 * j) 0) (x.getD (4 * j + 1) 0) (x.getD (4 * j + 2) 0) (x.getD (4 * j + 3) 0)

/-- R130 (b), one index: the next schedule word, from the words so far; `t` is their number. -/
def expandOne (w : List Word) (t : Nat) : List Word :=
  w ++ [rotl (w.getD (t - 3) 0 ^^^ w.getD (t - 8) 0 ^^^ w.getD (t - 14) 0 ^^^ w.getD (t - 16) 0) 1]

/-- R130 (a) and (b): the 80 schedule words of a block. -/
def expand (x : Vector Byte 64) : List Word := (List.range' 16 64).foldl expandOne (parseBlock x)

/-- R130 (d), one index: `(a, b, c, d, e) = (temp, a, ROTL(b, 30), c, d)`. -/
def refRound (w : List Word) (r : Regs) (t : Nat) : Regs :=
  { a := add5 (rotl r.a 5) (fsel (Fin.ofNat 4 (t / 20)) r.b r.c r.d) r.e (ksel (Fin.ofNat 4 (t / 20))) (w.getD t 0),
    b := r.a, c := rotl r.b 30, d := r.c, e := r.d }

/-- R130 (c) and (d): the registers after the 80 round steps. -/
def refRounds (s : Vector Word 5) (w : List Word) : Regs :=
  (List.range 80).foldl (refRound w) { a := s[0], b := s[1], c := s[2], d := s[3], e := s[4] }

/-- `COMPRESS1(S, X)` (R130). -/
def compress1 (s : Vector Word 5) (x : Vector Byte 64) : Vector Word 5 :=
  let r := refRounds s (expand x)
  #v[s[0] + r.a, s[1] + r.b, s[2] + r.c, s[3] + r.d, s[4] + r.e]

/-- `COMPRESS(S, [X_1, ..., X_N])`: the left fold of `COMPRESS1` (R133). -/
def compress (s : Vector Word 5) (xs : List (Vector Byte 64)) : Vector Word 5 := xs.foldl compress1 s

/-- Byte `4i + k` of the 20-byte digest is `H[i][31-8k : 24-8k]` (20_memory R42). A reading aid: the engine does not
serialise. -/
def digestByte (s : Vector Word 5) (i : Fin 5) (k : Fin 4) : Byte := s[i].extractLsb' (24 - 8 * k.val) 8

/-- The 64 bytes the block buffer holds, `B[0]` first. -/
def State.block (s : State) : Vector Byte 64 := Vector.ofFn s.readByte

end Sys2Proof.Machine
end

