-- ==== Sys2Proof/Safety.lean ====
section
/-! DEFINITION. The terms claims are stated in: the invariant of the reachable states, a run's end and result, and what a host
can tell apart. -/

namespace Sys2Proof.Machine

/-- The phases in which PARSE has run and FOLD has not. -/
def Phase.parsed : Phase → Bool
  | .idle => false
  | .parse => false
  | .sched => true
  | .seed => true
  | .round => true
  | .fold => true

/-- The invariant of the reachable states (10_state R26), clauses (ii) to (v); (i) and (vi) hold by the types Phase and
Cause. -/
abbrev State.Inv (s : State) : Prop :=
  s.t.toNat ≤ 79 ∧
  (s.phase ∈ [Phase.idle, Phase.parse, Phase.seed, Phase.fold] → s.t = 0) ∧
  (s.phase = .sched → 16 ≤ s.t.toNat) ∧
  (s.phase ≠ .idle → s.HV = fullHV) ∧
  (s.phase = .parse → s.BV = fullBV) ∧
  (s.phase.parsed = true → s.BV = 0)

/-- The state after reset as the spec gives it (10_state R27): nothing is said of the bits it leaves unspecified. -/
abbrev State.AfterReset (s : State) : Prop :=
  s.phase = .idle ∧ s.t = 0 ∧ s.fault = .noFault ∧ s.HV = 0 ∧ s.BV = 0

/-- A run is over: the host has no further command and the engine is idle (70 R198). -/
abbrev State.RunOver (s : State) : Prop := s.host = [] ∧ s.phase = .idle

/-- No command of the run has faulted: the premise 60 R187 asks of a claim about a run. -/
abbrev State.NoFault (s : State) : Prop := s.fault = .noFault

/-- `W[t] = ROTL(W[t-3] ^ W[t-8] ^ W[t-14] ^ W[t-16], 1)` at index `t` (41 R102). -/
abbrev recurrenceAt (w : Vector Word 80) (t : Fin 80) : Prop :=
  w[t] = rotl (w[t.val - 3] ^^^ w[t.val - 8] ^^^ w[t.val - 14] ^^^ w[t.val - 16]) 1

/-- After PARSE the first sixteen schedule words are the block's big-endian words, and every schedule word generated so far
satisfies the recurrence (41 R102). -/
abbrev State.ScheduleInv (s : State) : Prop :=
  (s.phase.parsed = true → ∀ k : Fin 80, k.val < 16 →
    s.W[k] = be32 (s.B.read (4 * k.val)) (s.B.read (4 * k.val + 1)) (s.B.read (4 * k.val + 2)) (s.B.read (4 * k.val + 3))) ∧
  (s.phase = .sched → ∀ k : Fin 80, 16 ≤ k.val → k.val < s.t.toNat → recurrenceAt s.W k) ∧
  (s.phase = .seed ∨ s.phase = .round ∨ s.phase = .fold → ∀ k : Fin 80, 16 ≤ k.val → recurrenceAt s.W k)

/-- The schedule words the current block has written: `W[k]` for `k < t` in SCHED, all of them afterwards (10_state R16). -/
def State.wroteW (s : State) (k : Fin 80) : Bool :=
  match s.phase with
  | .idle => false
  | .parse => false
  | .sched => decide (k.val < s.t.toNat)
  | .seed => true
  | .round => true
  | .fold => true

/-- `s` after `respond(0, rdata)` (30 R63): one more response, cause 0. -/
def State.answered (s : State) (rdata : Word) : State :=
  { s with responses := s.responses ++ [(0 : BitVec 3) ++ rdata] }

/-- `s` after the fault entry of cause `c` (60 R176): `FAULT` if it was 0, the response `{c, 0}`, nothing else. -/
def State.faulted (s : State) (c : Cause) : State :=
  { s with fault := if s.fault = .noFault then c else s.fault, responses := s.responses ++ [c.code ++ (0 : Word)] }

/-- The row of 30 R64 for the opcode `op`, in the numbers of the word's fields. -/
abbrev operandsLegal (op idx data : Nat) : Prop :=
  (op = 0 → idx = 0 ∧ data = 0) ∧ (op = 1 → idx ≤ 4) ∧ (op = 2 → idx ≤ 4 ∧ data = 0) ∧
  (op = 3 → idx ≤ 63 ∧ data ≤ 0xFF) ∧ (op = 4 → idx ≤ 15) ∧ (op = 5 → idx = 0 ∧ data = 0)

/-- Two states that differ at most in bits the spec calls unspecified and unreachable: state words and block bytes behind a
cleared valid bit (10_state R12, R15), schedule words not written yet (R16), and the working registers outside ROUND and FOLD
(R17, R25). -/
abbrev State.Agree (s u : State) : Prop :=
  s.HV = u.HV ∧ s.BV = u.BV ∧ s.phase = u.phase ∧ s.t = u.t ∧ s.fault = u.fault ∧ s.host = u.host ∧
  s.responses = u.responses ∧
  (∀ i : Fin 5, s.validH i = true → s.readH i = u.readH i) ∧
  (∀ n : Fin 64, s.validB n = true → s.readByte n = u.readByte n) ∧
  (∀ k : Fin 80, s.wroteW k = true → s.W[k] = u.W[k]) ∧
  (s.phase = .round ∨ s.phase = .fold → s.a = u.a ∧ s.b = u.b ∧ s.c = u.c ∧ s.d = u.d ∧ s.e = u.e)

end Sys2Proof.Machine
end

