-- ==== Sys2Proof/Certificates/Slice0/Obligations.lean ====
section
/-! DEFINITION. What is claimed of the model, for the provers. Each docstring names the rules or sections of spec/ a statement
formalises; OBLIGATIONS.json lists them. In every statement `host` is the sequence of commands the host presents and
`responses` the sequence of responses, the two sequences 70 R198 names (notes/assumptions/1.md, 3.md); the head of `host` is
the command on the port. -/

open Sys2Proof Sys2Proof.Machine

/-! ## Encoding -/

/-- Decoding the word of a well-formed operation gives it back, every operand at every value its encoding admits
(30_encoding sections 2, 5). -/
def Obligations.DecodeOfEncodeIsTheOperation : Prop :=
  ∀ i : Instr, i.WellFormed → decode (encode i) = .ok i

/-- An operation a word decodes to is well formed and its encoding is that word: no two words mean one operation
(30_encoding sections 2, 4, 5). -/
def Obligations.DecodedOperationEncodesToItsWord : Prop :=
  ∀ (c : Code) (i : Instr), decode c = .ok i → i.WellFormed ∧ encode i = c

/-- The fields of a command word stand at bits 43:40, 39:32 and 31:0, decoding looks at `op` alone, and every word is three
such fields (30_encoding section 2). -/
def Obligations.CommandDecodesByItsOpField : Prop :=
  (∀ (op : BitVec 4) (idx : BitVec 8) (data : Word) (w : CmdWord),
    w.toNat = op.toNat * 2 ^ 40 + idx.toNat * 2 ^ 32 + data.toNat →
      (op = 0 → decodeCmd w = .nop idx data) ∧ (op = 1 → decodeCmd w = .wrh idx data) ∧
      (op = 2 → decodeCmd w = .rdh idx data) ∧ (op = 3 → decodeCmd w = .wrb idx data) ∧
      (op = 4 → decodeCmd w = .wrw idx data) ∧ (op = 5 → decodeCmd w = .start idx data) ∧
      (op = 6 ∨ op = 7 → decodeCmd w = .rsvd67 op idx data) ∧ (8 ≤ op.toNat → decodeCmd w = .rsvd8F op idx data)) ∧
  (∀ w : CmdWord, ∃ (op : BitVec 4) (idx : BitVec 8) (data : Word),
    w.toNat = op.toNat * 2 ^ 40 + idx.toNat * 2 ^ 32 + data.toNat)

/-- Exactly one row of the opcode table covers a command word, the row of the operation it decodes to; a sequencer word is
covered by the row of the micro-operation it selects and by no row if it selects none (30_encoding section 9). -/
def Obligations.TableRowsCoverEachWordOnce : Prop :=
  (∀ w : CmdWord, opcodeTable.filter (fun r => r.covers (.cmd w)) = [rowOf (decodeCmd w)]) ∧
  (∀ (w : SeqWord) (i : Instr), decodeSeq w = .ok i → opcodeTable.filter (fun r => r.covers (.seq w)) = [rowOf i]) ∧
  (∀ (w : SeqWord) (x : DecodeError), decodeSeq w = .error x → opcodeTable.filter (fun r => r.covers (.seq w)) = [])

/-- Words written out in the spec decode to the operations they stand for (44 R151 to R157, 30_encoding section 5). -/
def Obligations.SpecWordsDecodeAsWritten : Prop :=
  decodeCmd 0x00000000000 = .nop 0 0 ∧ decodeCmd 0x104C3D2E1F0 = .wrh 4 0xC3D2E1F0 ∧
  decodeCmd 0x20300000000 = .rdh 3 0 ∧ decodeCmd 0x33F00000018 = .wrb 63 0x18 ∧
  decodeCmd 0x40F00000018 = .wrw 15 0x18 ∧ decodeCmd 0x50000000000 = .start 0 0 ∧
  decodeCmd 0x9FFFFFFFFFF = .rsvd8F 9 0xFF 0xFFFFFFFF ∧
  decodeSeq 0b0010000000 = .ok .parse ∧ decodeSeq 0b0100010000 = .ok (.sched 16) ∧
  decodeSeq 0b1001001111 = .ok (.roundPar3 79)

/-- R67: the sequencer word is `{phase, t}`, the micro-operation performed next is a function of it alone, by the table of
R67; every other value is unreachable (no state of the invariant R26 has it) and has no meaning: the model's step refuses it
by name (the treatment 93 U11 advises). -/
def Obligations.SequencerWordSelectsTheMicroOperation : Prop :=
  ∀ (p : BitVec 3) (t : BitVec 7) (w : SeqWord), w.toNat = p.toNat * 128 + t.toNat →
    decodeSeq w =
      (if p = 0 ∧ t = 0 then .error .idle
       else if p = 1 ∧ t = 0 then .ok .parse
       else if p = 2 ∧ 16 ≤ t.toNat ∧ t.toNat ≤ 79 then .ok (.sched t)
       else if p = 3 ∧ t = 0 then .ok .seed
       else if p = 4 ∧ t.toNat ≤ 19 then .ok (.roundCh t)
       else if p = 4 ∧ 20 ≤ t.toNat ∧ t.toNat ≤ 39 then .ok (.roundPar1 t)
       else if p = 4 ∧ 40 ≤ t.toNat ∧ t.toNat ≤ 59 then .ok (.roundMaj t)
       else if p = 4 ∧ 60 ≤ t.toNat ∧ t.toNat ≤ 79 then .ok (.roundPar3 t)
       else if p = 5 ∧ t = 0 then .ok .fold
       else .error .noMicroOp) ∧
    (∀ s : State, s.phase.code = p → s.t = t →
      (∀ i, decodeSeq w = .ok i → step s = exec i s) ∧
      (decodeSeq w = .error .noMicroOp → ¬ s.Inv ∧ step s = .refused .noMicroOp))

/-! ## The step, acceptance and faults -/

/-- A step runs the decoded operation: in IDLE the command on the port, which the host then no longer presents; while busy the
micro-operation `SEQ` selects; in IDLE with no command presented nothing happens (00_scope section 6, 44 section 1; the list
`host` and the rest in IDLE are the model's choices, notes/assumptions/1.md and 4.md). -/
def Obligations.StepRunsTheDecodedOperation : Prop :=
  (∀ (s : State) (w : CmdWord) (rest : List CmdWord), s.phase = .idle → s.t = 0 → s.host = w :: rest →
    step s = exec (decodeCmd w) { s with host := rest }) ∧
  (∀ (s : State) (i : Instr), decodeSeq (s.phase.code ++ s.t) = .ok i → step s = exec i s) ∧
  (∀ s : State, s.phase = .idle → s.t = 0 → s.host = [] → step s = .next s)

/-- R150: while busy `cmd_ready` is 0, a step leaves the host's command waiting and records nothing about it, and the hold
ends within 147 steps with the command still there unchanged; in IDLE one step accepts the command and gives exactly one
response. -/
def Obligations.CommandIsHeldWhileBusyAndAcceptedWhenIdle : Prop :=
  (∀ s u : State, s.phase ≠ .idle → step s = .next u →
    s.cmdReady = false ∧ u.host = s.host ∧ u.responses = s.responses ∧
    ∀ h : List CmdWord, step { s with host := h } = .next { u with host := h }) ∧
  (∀ s : State, s.Inv → s.phase ≠ .idle →
    ∃ n u, n ≤ 147 ∧ stepN n s = .next u ∧ u.phase = .idle ∧ u.t = 0 ∧ u.host = s.host ∧ u.responses = s.responses) ∧
  (∀ (s : State) (w : CmdWord) (rest : List CmdWord), s.phase = .idle → s.t = 0 → s.host = w :: rest →
    s.cmdReady = true ∧ ∃ u r, step s = .next u ∧ u.host = rest ∧ u.responses = s.responses ++ [r])

/-- R158: the order of checks for an accepted command word, first match decides. `op`, `idx` and `data` are the numbers of the
word's fields, `operandsLegal` is the row of R64, `faulted` the fault entry of R176. -/
def Obligations.ChecksOfACommandDecideInOrder : Prop :=
  ∀ (s : State) (w : CmdWord) (rest : List CmdWord), s.phase = .idle → s.t = 0 → s.host = w :: rest →
    let op := w.toNat / 2 ^ 40
    let idx := w.toNat / 2 ^ 32 % 2 ^ 8
    let data := w.toNat % 2 ^ 32
    let p : State := { s with host := rest }
    if 6 ≤ op then step s = .next (p.faulted .illegalOp)
    else if ¬ operandsLegal op idx data then step s = .next (p.faulted .badOperand)
    else if op = 2 ∧ s.HV.getLsbD idx = false then step s = .next (p.faulted .stateUninit)
    else if op = 5 ∧ s.HV ≠ 0b11111 then step s = .next (p.faulted .stateUninit)
    else if op = 5 ∧ s.BV ≠ 0xFFFFFFFFFFFFFFFF then step s = .next (p.faulted .blockIncomplete)
    else ∃ (u : State) (rdata : Word), step s = .next u ∧ u.fault = s.fault ∧
      u.responses = s.responses ++ [(0 : BitVec 3) ++ rdata] ∧ exec (decodeCmd w) p = .next u

/-- R176: a command that answers a non-zero cause has set `FAULT` if it was 0, has answered `rdata = 0`, and has changed
nothing else. -/
def Obligations.FaultEntryChangesOnlyFaultAndTheResponse : Prop :=
  ∀ (s u : State) (w : CmdWord) (rest : List CmdWord) (c : BitVec 3) (rdata : Word),
    s.phase = .idle → s.t = 0 → s.host = w :: rest → step s = .next u →
    u.responses = s.responses ++ [c ++ rdata] → c ≠ 0 →
      rdata = 0 ∧ (s.fault = .noFault → u.fault.code = c) ∧ (s.fault ≠ .noFault → u.fault = s.fault) ∧
      u = { s with fault := u.fault, host := rest, responses := u.responses }

/-- R22: `FAULT` holds the cause of the first fault since reset: 0 after reset, set only by a faulting command and to the
cause its response carries, and once non-zero changed by no step; the output `fault` shows it. -/
def Obligations.FirstFaultCauseSticks : Prop :=
  (∀ left s : State, (left.assertRst s).fault.code = 0) ∧ State.reset.fault.code = 0 ∧
  (∀ s u : State, step s = .next u → s.fault.code ≠ 0 → u.fault = s.fault) ∧
  (∀ s u : State, step s = .next u → s.fault.code = 0 →
    u.fault.code = 0 ∨ (s.phase = .idle ∧ u.responses = s.responses ++ [u.fault.code ++ (0 : Word)])) ∧
  (∀ s u : State, step s = .next u → s.fault.code = 0 → u.fault.code = 0 →
    u.responses = s.responses ∨ ∃ rdata : Word, u.responses = s.responses ++ [(0 : BitVec 3) ++ rdata]) ∧
  (∀ s : State, s.faultOut = s.fault.code)

/-- R177: whatever `FAULT` records, the engine performs the same step, up to `FAULT` itself; only reset clears `FAULT`. -/
def Obligations.RecordedFaultDoesNotChangeWhatIsDone : Prop :=
  (∀ (s u : State) (c : Cause), step s = .next u → ∃ f, step { s with fault := c } = .next { u with fault := f }) ∧
  (∀ s u : State, step s = .next u → s.fault ≠ .noFault → u.fault ≠ .noFault) ∧
  (∀ left s : State, (left.assertRst s).fault = .noFault)

/-- Only an accepted WRH and a FOLD change a state word (10_state section 2, 43_driver section 3). -/
def Obligations.OnlyWrhAndFoldChangeStateWords : Prop :=
  ∀ s u : State, step s = .next u → u.H ≠ s.H →
    s.phase = .fold ∨
    (s.phase = .idle ∧ ∃ w rest idx v, ∃ i : Fin 5, s.host = w :: rest ∧ decodeCmd w = .wrh idx v ∧ idx.toNat = i.val ∧
      u.H = s.H.set i.val v)

/-- No step clears a valid bit of `H`, and only PARSE clears a valid bit of `B` (10_state sections 2 and 3, 70 section 1). -/
def Obligations.ValidBitsAreClearedOnlyByResetAndParse : Prop :=
  ∀ s u : State, step s = .next u →
    (∀ i : Fin 5, s.validH i = true → u.validH i = true) ∧
    ((∃ n : Fin 64, s.validB n = true ∧ u.validB n = false) → s.phase = .parse ∧ u.BV = 0)

/-! ## The instructions: host commands -/

/-- R151: NOP with `idx = 0` and `data = 0` answers 0 and changes nothing; any other operand faults with BAD_OPERAND. -/
def Obligations.NopAnswersAndChangesNothing : Prop :=
  ∀ s : State, exec (.nop 0 0) s = .next (s.answered 0) ∧
    ∀ (idx : BitVec 8) (data : Word), idx ≠ 0 ∨ data ≠ 0 → exec (.nop idx data) s = .next (s.faulted .badOperand)

/-- R152: WRH i, v writes `H[i]` and sets `HV[i]`, for any `v`; `idx >= 5` faults with BAD_OPERAND. -/
def Obligations.WrhWritesOneStateWord : Prop :=
  ∀ (s : State) (v : Word),
    (∀ (idx : BitVec 8) (i : Fin 5), idx.toNat = i.val → exec (.wrh idx v) s = .next
      { s with H := s.H.set i.val v, HV := s.HV ||| BitVec.twoPow 5 i.val,
               responses := s.responses ++ [(0 : BitVec 3) ++ (0 : Word)] }) ∧
    (∀ idx : BitVec 8, 5 ≤ idx.toNat → exec (.wrh idx v) s = .next (s.faulted .badOperand))

/-- R153: RDH i answers `H[i]` if `HV[i]` is set and faults with STATE_UNINIT if not, writing nothing; `idx >= 5` or
`data != 0` faults with BAD_OPERAND. -/
def Obligations.RdhAnswersOneStateWord : Prop :=
  ∀ (s : State) (idx : BitVec 8),
    (∀ i : Fin 5, idx.toNat = i.val → s.HV.getLsbD i.val = true →
      exec (.rdh idx 0) s = .next { s with responses := s.responses ++ [(0 : BitVec 3) ++ s.H[i]] }) ∧
    (∀ i : Fin 5, idx.toNat = i.val → s.HV.getLsbD i.val = false →
      exec (.rdh idx 0) s = .next (s.faulted .stateUninit)) ∧
    (∀ data : Word, 5 ≤ idx.toNat ∨ data ≠ 0 → exec (.rdh idx data) s = .next (s.faulted .badOperand))

/-- R154: WRB n, v writes the byte `B[n]` and sets `BV[n]`; `idx >= 64` or `data > 0xFF` faults with BAD_OPERAND. -/
def Obligations.WrbWritesOneBlockByte : Prop :=
  ∀ (s : State) (idx : BitVec 8) (data : Word), s.B.wf = true →
    (∀ n : Fin 64, idx.toNat = n.val → data.toNat ≤ 0xFF → ∃ u, exec (.wrb idx data) s = .next u ∧
      u.readByte n = data.extractLsb' 0 8 ∧ (∀ a : Nat, a ≠ n.val → u.B.read a = s.B.read a) ∧
      u = { s with B := u.B, BV := s.BV ||| BitVec.twoPow 64 n.val,
                   responses := s.responses ++ [(0 : BitVec 3) ++ (0 : Word)] }) ∧
    (64 ≤ idx.toNat ∨ 0xFF < data.toNat → exec (.wrb idx data) s = .next (s.faulted .badOperand))

/-- R155: WRW j, v writes the four bytes of `v` at `B[4j]` to `B[4j+3]`, most significant first, and sets their valid bits, so
that PARSE reads the word back as `v`; `idx >= 16` faults with BAD_OPERAND. -/
def Obligations.WrwWritesFourBlockBytesBigEndian : Prop :=
  ∀ (s : State) (idx : BitVec 8) (v : Word), s.B.wf = true →
    (∀ j : Fin 16, idx.toNat = j.val → ∃ u, exec (.wrw idx v) s = .next u ∧
      u.B.read (4 * j.val) = v.extractLsb' 24 8 ∧ u.B.read (4 * j.val + 1) = v.extractLsb' 16 8 ∧
      u.B.read (4 * j.val + 2) = v.extractLsb' 8 8 ∧ u.B.read (4 * j.val + 3) = v.extractLsb' 0 8 ∧
      (∀ a : Nat, a / 4 ≠ j.val → u.B.read a = s.B.read a) ∧
      (∀ n : Fin 64, u.validB n = (s.validB n || decide (n.val / 4 = j.val))) ∧
      (∀ (p : State) (k : Fin 80), exec .parse u = .next p → k.val = j.val → p.W[k] = v) ∧
      u = { s with B := u.B, BV := u.BV, responses := s.responses ++ [(0 : BitVec 3) ++ (0 : Word)] }) ∧
    (16 ≤ idx.toNat → exec (.wrw idx v) s = .next (s.faulted .badOperand))

/-- R156: START enters PARSE and answers at once if all of `H` and all of `B` are valid; it faults with BAD_OPERAND, then
STATE_UNINIT, then BLOCK_INCOMPLETE, in this order. -/
def Obligations.StartEntersParse : Prop :=
  ∀ s : State,
    (s.HV = 0b11111 → s.BV = 0xFFFFFFFFFFFFFFFF → exec (.start 0 0) s = .next
      { s with phase := .parse, t := 0, responses := s.responses ++ [(0 : BitVec 3) ++ (0 : Word)] }) ∧
    (s.HV = 0b11111 → s.BV ≠ 0xFFFFFFFFFFFFFFFF → exec (.start 0 0) s = .next (s.faulted .blockIncomplete)) ∧
    (s.HV ≠ 0b11111 → exec (.start 0 0) s = .next (s.faulted .stateUninit)) ∧
    (∀ (idx : BitVec 8) (data : Word), idx ≠ 0 ∨ data ≠ 0 → exec (.start idx data) s = .next (s.faulted .badOperand))

/-- R157, R171: a reserved opcode raises ILLEGAL_OP whatever its operands: `FAULT` if it was 0, the response, nothing else. -/
def Obligations.ReservedOpcodesRaiseIllegalOp : Prop :=
  (∀ (s : State) (op : BitVec 4) (idx : BitVec 8) (data : Word),
    exec (.rsvd67 op idx data) s = .next (s.faulted .illegalOp) ∧
    exec (.rsvd8F op idx data) s = .next (s.faulted .illegalOp)) ∧
  (∀ (s : State) (w : CmdWord) (rest : List CmdWord), s.phase = .idle → s.t = 0 → s.host = w :: rest →
    6 ≤ w.toNat / 2 ^ 40 → step s = .next (State.faulted { s with host := rest } .illegalOp))

/-! ## The instructions: micro-operations -/

/-- R100: PARSE copies the block's sixteen big-endian words to `W[0..15]`, clears `BV` and goes to (SCHED, 16). Of the bytes of
`B`, unspecified from here on (10_state R15), it says nothing. -/
def Obligations.ParseCopiesTheBlockIntoTheSchedule : Prop :=
  ∀ s : State, ∃ u, exec .parse s = .next u ∧
    (∀ k : Fin 80, k.val < 16 → u.W[k] = be32 (s.B.read (4 * k.val)) (s.B.read (4 * k.val + 1))
      (s.B.read (4 * k.val + 2)) (s.B.read (4 * k.val + 3))) ∧
    (∀ k : Fin 80, 16 ≤ k.val → u.W[k] = s.W[k]) ∧
    u = { s with W := u.W, B := u.B, BV := 0, phase := .sched, t := 16 } ∧
    (s.phase = .parse → s.t = 0 → step s = .next u)

/-- R101: SCHED at `t` in 16..79 writes `W[t]` and advances, to (SEED, 0) after `t = 79`. -/
def Obligations.SchedGeneratesOneScheduleWord : Prop :=
  ∀ (s : State) (t : BitVec 7) (k : Fin 80), t.toNat = k.val → 16 ≤ k.val →
    let u : State := { s with
      W := s.W.set k.val (rotl (s.W[k.val - 3] ^^^ s.W[k.val - 8] ^^^ s.W[k.val - 14] ^^^ s.W[k.val - 16]) 1),
      phase := if k.val = 79 then .seed else .sched, t := if k.val = 79 then 0 else t + 1 }
    exec (.sched t) s = .next u ∧ (s.phase = .sched → s.t = t → step s = .next u)

/-- R110: SEED copies `H` into the working registers and goes to (ROUND, 0). -/
def Obligations.SeedCopiesTheStateIntoTheRegisters : Prop :=
  ∀ s : State,
    let u : State := { s with a := s.H[0], b := s.H[1], c := s.H[2], d := s.H[3], e := s.H[4], phase := .round, t := 0 }
    exec .seed s = .next u ∧ (s.phase = .seed → s.t = 0 → step s = .next u)

/-- R111 to R115: the round step of the four groups, with each group's function and constant written out; after `t = 79` the
sequencer goes to (FOLD, 0). -/
def Obligations.RoundStepOfEachGroup : Prop :=
  ∀ (s : State) (t : BitVec 7) (k : Fin 80), t.toNat = k.val →
    let after (f constant : Word) : State := { s with
      a := rotl s.a 5 + f + s.e + constant + s.W[k], b := s.a, c := rotl s.b 30, d := s.c, e := s.d,
      phase := if k.val = 79 then .fold else .round, t := if k.val = 79 then 0 else t + 1 }
    let runs (i : Instr) (u : State) : Prop :=
      exec i s = .next u ∧ (s.phase = .round → s.t = t → step s = .next u)
    (k.val ≤ 19 → runs (.roundCh t) (after (s.d ^^^ (s.b &&& (s.c ^^^ s.d))) 0x5A827999)) ∧
    (20 ≤ k.val ∧ k.val ≤ 39 → runs (.roundPar1 t) (after (s.b ^^^ s.c ^^^ s.d) 0x6ED9EBA1)) ∧
    (40 ≤ k.val ∧ k.val ≤ 59 →
      runs (.roundMaj t) (after ((s.b &&& s.c) ^^^ (s.b &&& s.d) ^^^ (s.c &&& s.d)) 0x8F1BBCDC)) ∧
    (60 ≤ k.val → runs (.roundPar3 t) (after (s.b ^^^ s.c ^^^ s.d) 0xCA62C1D6))

/-- R116: FOLD adds each working register to its state word, each sum wrapping by itself, and goes to (IDLE, 0). -/
def Obligations.FoldAddsTheRegistersIntoTheState : Prop :=
  ∀ s : State,
    let u : State := { s with
      H := #v[s.H[0] + s.a, s.H[1] + s.b, s.H[2] + s.c, s.H[3] + s.d, s.H[4] + s.e], phase := .idle, t := 0 }
    exec .fold s = .next u ∧ (s.phase = .fold → s.t = 0 → step s = .next u) ∧
    ∀ (i : Fin 5), u.H[i].toNat = (s.H[i].toNat + (#v[s.a, s.b, s.c, s.d, s.e])[i].toNat) % 2 ^ 32

/-! ## Frames -/

/-- What NOP, RDH, START and the reserved commands leave unchanged, faulting or not: every state word, valid bit, block byte,
schedule word and working register; all but START leave the sequencer too (44 sections 1 and 2). -/
def Obligations.FrameOfCommandsThatStoreNothing : Prop :=
  ∀ (s u : State) (i : Instr), exec i s = .next u →
    (∃ (op : BitVec 4) (idx : BitVec 8) (data : Word), i = .nop idx data ∨ i = .rdh idx data ∨ i = .start idx data ∨
      i = .rsvd67 op idx data ∨ i = .rsvd8F op idx data) →
    u.H = s.H ∧ u.HV = s.HV ∧ (∀ a : Nat, u.B.read a = s.B.read a) ∧ u.BV = s.BV ∧ u.W = s.W ∧
    u.a = s.a ∧ u.b = s.b ∧ u.c = s.c ∧ u.d = s.d ∧ u.e = s.e ∧ u.host = s.host ∧
    ((∀ idx data, i ≠ .start idx data) → u.phase = s.phase ∧ u.t = s.t) ∧
    (∃ r, u.responses = s.responses ++ [r])

/-- What WRH leaves unchanged: every other state word and valid bit, the block buffer, the schedule, the working registers and
the sequencer; if it faults, its own word too (44 R152). -/
def Obligations.FrameOfWrh : Prop :=
  ∀ (s u : State) (idx : BitVec 8) (v : Word), exec (.wrh idx v) s = .next u →
    (∀ i : Fin 5, idx.toNat ≠ i.val → u.H[i] = s.H[i] ∧ u.validH i = s.validH i) ∧
    (∀ a : Nat, u.B.read a = s.B.read a) ∧ u.BV = s.BV ∧ u.W = s.W ∧
    u.a = s.a ∧ u.b = s.b ∧ u.c = s.c ∧ u.d = s.d ∧ u.e = s.e ∧ u.phase = s.phase ∧ u.t = s.t ∧ u.host = s.host ∧
    (idx.toNat ≤ 4 → u.fault = s.fault)

/-- What WRB and WRW leave unchanged: every block byte outside the bytes they store to (none, where an operand is refused), its
valid bit, and everything else but `FAULT` and the responses (44 R154, R155). -/
def Obligations.FrameOfBlockStores : Prop :=
  (∀ (s u : State) (idx : BitVec 8) (data : Word), exec (.wrb idx data) s = .next u →
    (∀ n v, byteOperands idx data = some (n, v) →
      (∀ a : Nat, a ≠ n.val → u.B.read a = s.B.read a) ∧ (∀ m : Fin 64, m ≠ n → u.validB m = s.validB m) ∧
      u.fault = s.fault) ∧
    (byteOperands idx data = none → (∀ a : Nat, u.B.read a = s.B.read a) ∧ u.BV = s.BV) ∧
    u = { s with B := u.B, BV := u.BV, fault := u.fault, responses := u.responses }) ∧
  (∀ (s u : State) (idx : BitVec 8) (v : Word), exec (.wrw idx v) s = .next u →
    (∀ j, wordIndex idx = some j →
      (∀ a : Nat, (∀ k : Fin 4, a ≠ (byteOfWord j k).val) → u.B.read a = s.B.read a) ∧
      (∀ m : Fin 64, (∀ k : Fin 4, m ≠ byteOfWord j k) → u.validB m = s.validB m) ∧ u.fault = s.fault) ∧
    (wordIndex idx = none → (∀ a : Nat, u.B.read a = s.B.read a) ∧ u.BV = s.BV) ∧
    u = { s with B := u.B, BV := u.BV, fault := u.fault, responses := u.responses })

/-- What each micro-operation leaves unchanged: no micro-operation writes a block byte, `HV`, `FAULT`, a response or the host's
commands; only FOLD writes `H`, only PARSE clears `BV`, only PARSE (words 0 to 15) and SCHED (word `t`) write `W`, only SEED
and ROUND write the working registers (41_schedule, 42_round). That PARSE leaves the bytes of `B`, unspecified from then on, is
the model's choice (notes/assumptions/8.md). -/
def Obligations.FrameOfMicroOperations : Prop :=
  ∀ (s u : State) (t : BitVec 7) (i : Instr), exec i s = .next u →
    i ∈ [.parse, .sched t, .seed, .roundCh t, .roundPar1 t, .roundMaj t, .roundPar3 t, .fold] →
    (∀ a : Nat, u.B.read a = s.B.read a) ∧ u.HV = s.HV ∧ u.fault = s.fault ∧ u.responses = s.responses ∧
    u.host = s.host ∧ (i ≠ .fold → u.H = s.H) ∧ (i ≠ .parse → u.BV = s.BV) ∧
    (∀ k : Fin 80, ¬ (i = .parse ∧ k.val < 16) → ¬ (i = .sched t ∧ k.val = t.toNat) → u.W[k] = s.W[k]) ∧
    (i = .parse ∨ i = .sched t ∨ i = .fold → u.a = s.a ∧ u.b = s.b ∧ u.c = s.c ∧ u.d = s.d ∧ u.e = s.e)

/-- WRH, WRB and WRW repeated with the same operands leave the same state, but for one more response; NOP and RDH change no
state but the response, and `FAULT` where they fault, and repeated at once they answer the same again (20_memory section 4). -/
def Obligations.RepeatedWriteLeavesTheSameState : Prop :=
  (∀ (s u : State) (idx : BitVec 8) (data : Word), s.B.wf = true →
    ∀ i ∈ [Instr.wrh idx data, Instr.wrb idx data, Instr.wrw idx data], exec i s = .next u →
      ∃ r, exec i u = .next { u with responses := u.responses ++ [r] }) ∧
  (∀ (s u : State) (idx : BitVec 8) (data : Word), ∀ i ∈ [Instr.nop idx data, Instr.rdh idx data], exec i s = .next u →
    ∃ (c : BitVec 3) (rdata : Word), u = { s with fault := u.fault, responses := s.responses ++ [c ++ rdata] } ∧
      (c = 0 → u.fault = s.fault) ∧ exec i u = .next { u with responses := u.responses ++ [c ++ rdata] })

/-! ## The datapath -/

/-- Bit `k` of `x` becomes bit `(k + n) mod 32` of `ROTL(x, n)`, for 0 <= n <= 31; so a rotation by 0 is none, and zero and all
ones are fixed points. The shift formula and the rotation by 30 as one to the right by 2 are clauses too, which the spec marks
as its own inference (40 section 1). -/
def Obligations.RotlMovesEveryBitLeftAround : Prop :=
  (∀ (x : Word) (n k : Nat), n ≤ 31 → k ≤ 31 → (rotl x n).getLsbD ((k + n) % 32) = x.getLsbD k) ∧
  (∀ x : Word, rotl x 0 = x ∧ rotl x 30 = (x >>> 2) ||| ((x &&& 3) <<< 30)) ∧
  (∀ (x : Word) (n : Nat), 1 ≤ n → n ≤ 31 → (rotl x n).toNat = (x.toNat * 2 ^ n ||| x.toNat / 2 ^ (32 - n)) % 2 ^ 32) ∧
  (∀ n : Nat, n ≤ 31 → rotl 0 n = 0 ∧ rotl 0xFFFFFFFF n = 0xFFFFFFFF)

/-- CH takes the bit of `y` where `x` has a 1 and of `z` where it has a 0; PAR is the parity of the three bits; MAJ is 1 where
at least two of them are (40 section 2; the spec marks the readings of CH and MAJ as its own inference). -/
def Obligations.BooleanFunctionsBitByBit : Prop :=
  ∀ (x y z : Word) (k : Nat), k ≤ 31 →
    (ch x y z).getLsbD k = (if x.getLsbD k then y.getLsbD k else z.getLsbD k) ∧
    (par x y z).getLsbD k = ((x.getLsbD k ^^ y.getLsbD k) ^^ z.getLsbD k) ∧
    (maj x y z).getLsbD k = decide (2 ≤ (x.getLsbD k).toNat + (y.getLsbD k).toNat + (z.getLsbD k).toNat)

/-- R68, R84, R85, R86: the group `t div 20` selects the boolean function and the round constant. -/
def Obligations.GroupSelectsFunctionAndConstant : Prop :=
  ∀ (t : Fin 80) (x y z : Word), (group t).val = t.val / 20 ∧
    (t.val ≤ 19 → fsel (group t) x y z = z ^^^ (x &&& (y ^^^ z)) ∧ ksel (group t) = 0x5A827999) ∧
    (20 ≤ t.val ∧ t.val ≤ 39 → fsel (group t) x y z = x ^^^ y ^^^ z ∧ ksel (group t) = 0x6ED9EBA1) ∧
    (40 ≤ t.val ∧ t.val ≤ 59 →
      fsel (group t) x y z = (x &&& y) ^^^ (x &&& z) ^^^ (y &&& z) ∧ ksel (group t) = 0x8F1BBCDC) ∧
    (60 ≤ t.val → fsel (group t) x y z = x ^^^ y ^^^ z ∧ ksel (group t) = 0xCA62C1D6)

/-- R87: ADD32 and ADD5 are addition modulo 2^32. -/
def Obligations.AddersWrapModuloTwoPow32 : Prop :=
  ∀ p q r s u : Word, (add32 p q).toNat = (p.toNat + q.toNat) % 2 ^ 32 ∧
    (add5 p q r s u).toNat = (p.toNat + q.toNat + r.toNat + s.toNat + u.toNat) % 2 ^ 32

/-- R88: byte 0 of BE32 is the most significant. -/
def Obligations.ByteAssemblerIsBigEndian : Prop :=
  ∀ b0 b1 b2 b3 : Byte,
    (be32 b0 b1 b2 b3).toNat = b0.toNat * 2 ^ 24 + b1.toNat * 2 ^ 16 + b2.toNat * 2 ^ 8 + b3.toNat

/-! ## Memory -/

/-- A word written by WRW is the word PARSE puts into `W[j]`, and a WRB after it replaces just its own byte (20_memory
section 2, R43's consequence). -/
def Obligations.WrwThenParseGivesTheWordBack : Prop :=
  ∀ (s u : State) (idx : BitVec 8) (j : Fin 16) (v : Word), s.B.wf = true → idx.toNat = j.val →
    exec (.wrw idx v) s = .next u →
      (∀ (p : State) (k : Fin 80), exec .parse u = .next p → k.val = j.val → p.W[k] = v) ∧
      (∀ (x : State) (bidx : BitVec 8) (data : Word) (k l : Fin 4), bidx.toNat = 4 * j.val + k.val → data.toNat ≤ 0xFF →
        exec (.wrb bidx data) u = .next x →
        x.B.read (4 * j.val + l.val) = if l = k then data.setWidth 8 else v.extractLsb' (24 - 8 * l.val) 8)

/-- The block buffer keeps its canonical form in every step, and has it at reset (the form is the model's,
notes/assumptions/17.md). -/
def Obligations.BlockBufferStaysCanonical : Prop :=
  State.reset.B.wf = true ∧ ∀ s u : State, s.B.wf = true → step s = .next u → u.B.wf = true

/-! ## Invariants -/

/-- Every step keeps the invariant of the reachable states (10_state section 10). -/
def Obligations.EveryStepKeepsTheInvariant : Prop :=
  ∀ s u : State, s.Inv → step s = .next u → u.Inv

/-- The invariant holds after reset, whatever the bits reset leaves unspecified (10_state sections 10 and 11). -/
def Obligations.InvariantHoldsAfterReset : Prop :=
  State.reset.Inv ∧ ∀ left s : State, (left.assertRst s).Inv

/-- From a state of the invariant a step always answers a next state: the machine is never stuck, and the refusal of a
sequencer value without meaning is never reached (43_driver section 2, 93 U11). For a busy state, and for an idle one with a
command presented, this is the spec's; that there is a step in IDLE with no command presented is the model's choice
(notes/assumptions/4.md). -/
def Obligations.InvariantStateAlwaysSteps : Prop :=
  ∀ s : State, s.Inv → ∃ u, step s = .next u

/-- Every step keeps the schedule invariant: `W[0..15]` are the block's words and each generated word satisfies the recurrence
"exactly", for the rest of the block (41_schedule, the rule on the schedule invariant; the spec derives it). That `B` still
holds the block after PARSE is the model's choice (notes/assumptions/8.md). -/
def Obligations.EveryStepKeepsTheScheduleInvariant : Prop :=
  ∀ s u : State, s.ScheduleInv → step s = .next u → u.ScheduleInv

/-- R131: the transitions of `(phase, t)`, row by row, with the micro-operation of each; in every busy state of the invariant
one step is enabled. -/
def Obligations.SequencerMovesAsItsTransitionTable : Prop :=
  (∀ s u : State, step s = .next u →
    (s.phase = .idle → s.t = 0 ∧ u.t = 0 ∧
      ((∃ rest, s.host = 0x50000000000 :: rest ∧ s.HV = 0b11111 ∧ s.BV = 0xFFFFFFFFFFFFFFFF) → u.phase = .parse) ∧
      (¬ (∃ rest, s.host = 0x50000000000 :: rest ∧ s.HV = 0b11111 ∧ s.BV = 0xFFFFFFFFFFFFFFFF) → u.phase = .idle)) ∧
    (s.phase = .parse → s.t = 0 ∧ step s = exec .parse s ∧ u.phase = .sched ∧ u.t = 16) ∧
    (s.phase = .sched → 16 ≤ s.t.toNat ∧ s.t.toNat ≤ 79 ∧ step s = exec (.sched s.t) s ∧
      (s.t.toNat ≤ 78 → u.phase = .sched ∧ u.t = s.t + 1) ∧ (s.t.toNat = 79 → u.phase = .seed ∧ u.t = 0)) ∧
    (s.phase = .seed → s.t = 0 ∧ step s = exec .seed s ∧ u.phase = .round ∧ u.t = 0) ∧
    (s.phase = .round → s.t.toNat ≤ 79 ∧
      step s = exec (if s.t.toNat / 20 = 0 then .roundCh s.t else if s.t.toNat / 20 = 1 then .roundPar1 s.t
        else if s.t.toNat / 20 = 2 then .roundMaj s.t else .roundPar3 s.t) s ∧
      (s.t.toNat ≤ 78 → u.phase = .round ∧ u.t = s.t + 1) ∧ (s.t.toNat = 79 → u.phase = .fold ∧ u.t = 0)) ∧
    (s.phase = .fold → s.t = 0 ∧ step s = exec .fold s ∧ u.phase = .idle ∧ u.t = 0)) ∧
  (∀ s : State, s.Inv → s.phase ≠ .idle → ∃ u, step s = .next u)

/-! ## The driver -/

/-- A started block takes 147 engine steps: 1 PARSE, 64 SCHED, 1 SEED, 80 ROUND, 1 FOLD; the count does not depend on the data
(43_driver section 2, which derives it). -/
def Obligations.BlockTakes147Steps : Prop :=
  ∀ s : State, s.phase = .parse → s.t = 0 → ∀ n : Nat, n ≤ 147 → ∃ u, stepN n s = .next u ∧
    (n = 0 → u.phase = .parse) ∧ (1 ≤ n ∧ n ≤ 64 → u.phase = .sched ∧ u.t.toNat = n + 15) ∧
    (n = 65 → u.phase = .seed) ∧ (66 ≤ n ∧ n ≤ 145 → u.phase = .round ∧ u.t.toNat = n - 66) ∧
    (n = 146 → u.phase = .fold) ∧ (n = 147 → u.phase = .idle ∧ u.t = 0)

/-- The block transaction: from an idle engine with all of `H` and `B` valid, an accepted START and 147 engine steps leave
`H = COMPRESS1(H, B)`, the block consumed, `FAULT` and `HV` as they were, and the scratch state as the reference function
leaves it (43_driver section 2, which derives it; reference function 43_driver section 1). That `W` and `a` to `e` keep after
FOLD what the block left in them is the model's choice, one of those 10_state section 9 allows (notes/assumptions/8.md). -/
def Obligations.BlockTransactionIsCompress1 : Prop :=
  ∀ (s : State) (rest : List CmdWord), s.phase = .idle → s.t = 0 → s.HV = 0b11111 → s.BV = 0xFFFFFFFFFFFFFFFF →
    s.host = 0x50000000000 :: rest →
    ∃ u, stepN 148 s = .next u ∧ u.phase = .idle ∧ u.t = 0 ∧ u.H = compress1 s.H s.block ∧ u.HV = 0b11111 ∧ u.BV = 0 ∧
      u.fault = s.fault ∧ u.host = rest ∧ u.responses = s.responses ++ [0] ∧
      u.W.toList = expand s.block ∧
      (⟨u.a, u.b, u.c, u.d, u.e⟩ : Regs) = refRounds s.H (expand s.block)

/-- The pseudo-command `COMPRESS v, blocks`, each block loaded by its bytes or by its words: an idle engine in any state that is
presented its commands, one step a command and 147 more a block later, has answered `COMPRESS(v, blocks)` and holds it in `H`,
faults or none recorded before (43_driver section 3, which derives it; 30_encoding section 8). -/
def Obligations.CompressCommandsFoldTheBlocks : Prop :=
  ∀ (s : State) (v : Vector Word 5) (bs : List BlockLoad) (rest : List CmdWord),
    s.phase = .idle → s.t = 0 → s.B.wf = true → s.host = compressCommands v bs ++ rest →
    ∃ u, stepN ((compressCommands v bs).length + 147 * bs.length) s = .next u ∧ u.phase = .idle ∧ u.t = 0 ∧ u.host = rest ∧
      u.H = compress v (bs.map BlockLoad.block) ∧ u.HV = 0b11111 ∧ u.fault = s.fault ∧ (bs ≠ [] → u.BV = 0) ∧
      u.responses = s.responses ++ List.replicate (5 + (bs.map fun b => (compress1Commands b).length).sum) 0 ++
        (compress v (bs.map BlockLoad.block)).toList.map (fun h => (0 : BitVec 3) ++ h)

/-- `LDSTATE` and both forms of loading a block, their commands in any order, leave the state words and the block they name,
all valid, and nothing else changed but the responses; the two forms load the same block: the words of a block loaded by words
are the words PARSE reads (30_encoding section 8). -/
def Obligations.LoadsInAnyOrderFillStateAndBlock : Prop :=
  (∀ (s : State) (v : Vector Word 5) (l rest : List CmdWord), s.phase = .idle → s.t = 0 → s.host = l ++ rest →
    l.Perm (ldState v) → stepN l.length s = .next
      { s with H := v, HV := 0b11111, host := rest, responses := s.responses ++ List.replicate l.length 0 }) ∧
  (∀ (s : State) (b : BlockLoad) (l rest : List CmdWord), s.phase = .idle → s.t = 0 → s.B.wf = true → s.host = l ++ rest →
    l.Perm b.commands → ∃ u, stepN l.length s = .next u ∧ u.block = b.block ∧ u.BV = 0xFFFFFFFFFFFFFFFF ∧
      u = { s with B := u.B, BV := u.BV, host := rest, responses := s.responses ++ List.replicate l.length 0 }) ∧
  (∀ w : Vector Word 16, parseBlock (BlockLoad.words w).block = w.toList)

/-- The result of a block depends only on `H` and `B` at the acceptance of START: not on `W`, the working registers, `FAULT`, or
anything the host does later (43_driver section 4, which derives it). -/
def Obligations.BlockResultDependsOnlyOnStateAndBlock : Prop :=
  ∀ (s u s' u' : State), s.phase = .parse → s.t = 0 → u.phase = .parse → u.t = 0 → s.H = u.H →
    (∀ n : Fin 64, s.readByte n = u.readByte n) → stepN 147 s = .next s' → stepN 147 u = .next u' → s'.H = u'.H

/-- Four steps after `a` held a value, `e` holds it rotated left by 30, and on the way it stood in `b`, `c` and `d`, for every
window of four round steps, the last ending in (FOLD, 0) (42_round, the rule on register movement, which the spec derives). -/
def Obligations.RegisterValueMovesThroughTheWindow : Prop :=
  ∀ s : State, s.phase = .round → s.t.toNat ≤ 76 →
    ∃ p q r u, step s = .next p ∧ step p = .next q ∧ step q = .next r ∧ step r = .next u ∧
      p.b = s.a ∧ q.c = rotl s.a 30 ∧ r.d = rotl s.a 30 ∧ u.e = rotl s.a 30 ∧
      u.b = r.a ∧ u.c = rotl q.a 30 ∧ u.d = rotl p.a 30 ∧
      (s.t.toNat ≤ 75 → u.phase = .round ∧ u.t = s.t + 4) ∧ (s.t.toNat = 76 → u.phase = .fold ∧ u.t = 0)

/-- Four SCHED steps are the batch of four the spec allows: the first three words depend only on words before the batch, the
fourth on the first (41_schedule, the rule on grouped generation, which the spec derives). -/
def Obligations.FourSchedStepsAreOneBatch : Prop :=
  ∀ (s : State) (k : Fin 77), s.phase = .sched → s.t.toNat = k.val → 16 ≤ k.val → ∃ u, stepN 4 s = .next u ∧
    u.W[k.val] = rotl (s.W[k.val - 3] ^^^ s.W[k.val - 8] ^^^ s.W[k.val - 14] ^^^ s.W[k.val - 16]) 1 ∧
    u.W[k.val + 1] = rotl (s.W[k.val - 2] ^^^ s.W[k.val - 7] ^^^ s.W[k.val - 13] ^^^ s.W[k.val - 15]) 1 ∧
    u.W[k.val + 2] = rotl (s.W[k.val - 1] ^^^ s.W[k.val - 6] ^^^ s.W[k.val - 12] ^^^ s.W[k.val - 14]) 1 ∧
    u.W[k.val + 3] = rotl (u.W[k.val] ^^^ s.W[k.val - 5] ^^^ s.W[k.val - 11] ^^^ s.W[k.val - 13]) 1 ∧
    (∀ m : Fin 80, m.val < k.val ∨ k.val + 3 < m.val → u.W[m] = s.W[m])

/-! ## Reset, outputs, and what the host cannot see -/

/-- R27: after reset `phase` is IDLE, `t`, `FAULT`, `HV` and `BV` are 0, and the constants are as always; nothing is said of the
other bits (whatever reset leaves in them is `left`). -/
def Obligations.ResetLeavesTheSpecifiedValues : Prop :=
  State.reset.AfterReset ∧ (∀ left s : State, (left.assertRst s).AfterReset) ∧
  (∀ left s : State, ∀ i : Fin 5, (left.assertRst s).validH i = false) ∧
  (∀ left s : State, ∀ n : Fin 64, (left.assertRst s).validB n = false) ∧
  ksel 0 = 0x5A827999 ∧ ksel 1 = 0x6ED9EBA1 ∧ ksel 2 = 0x8F1BBCDC ∧ ksel 3 = 0xCA62C1D6

/-- After a reset, in the middle of a block or not, the state cannot be read until it is written again: no word is valid; a word
that is not valid stays so over every step but one that accepts a WRH of its index; RDH of a word that is not valid faults with
STATE_UNINIT; a WRH makes its word, and no other, readable with the value written (70 section 1, 10_state section 2; the reset
event is notes/assumptions/13.md). -/
def Obligations.StateIsUnreadableAfterReset : Prop :=
  (∀ (left s : State) (i : Fin 5), (left.assertRst s).validH i = false) ∧
  (∀ (s u : State) (i : Fin 5), s.validH i = false → step s = .next u →
    (¬ ∃ (w : CmdWord) (rest : List CmdWord) (idx : BitVec 8) (v : Word), s.phase = .idle ∧ s.host = w :: rest ∧
      decodeCmd w = .wrh idx v ∧ idx.toNat = i.val) → u.validH i = false) ∧
  (∀ (s : State) (idx : BitVec 8) (i : Fin 5), idx.toNat = i.val → s.validH i = false →
    exec (.rdh idx 0) s = .next (s.faulted .stateUninit)) ∧
  (∀ (s : State) (idx : BitVec 8) (i : Fin 5) (v : Word), idx.toNat = i.val → ∃ u, exec (.wrh idx v) s = .next u ∧
    exec (.rdh idx 0) u = .next (u.answered v) ∧ ∀ j : Fin 5, j ≠ i → u.validH j = s.validH j)

/-- The outputs: `cmd_ready` is 1 exactly in IDLE, `busy` is its complement, `fault` is the register's code (30 section 1). The
codes are at most 4 for `FAULT` and 5 for the phase (10_state sections 7, 8 and 10, 60 section 1), in every state, reachable or
not, because the model makes the other codes unrepresentable, its choice (notes/assumptions/12.md). -/
def Obligations.OutputsShowPhaseAndFault : Prop :=
  ∀ s : State, (s.cmdReady = true ↔ s.phase.code = 0) ∧ s.busy = !s.cmdReady ∧ s.faultOut = s.fault.code ∧
    s.fault.code.toNat ≤ 4 ∧ s.phase.code.toNat ≤ 5

/-- Bits the spec leaves unspecified never reach the host: from two states of the invariant that differ at most in state words
and block bytes behind a cleared valid bit, schedule words not yet written and working registers outside a block, every step
gives states that again differ at most so, with the same responses, `FAULT` and valid bits (10_state sections 2, 3, 4, 5 and
9; the canonical form of both buffers is a premise). So no statement about responses rests on the model's reset values (notes/assumptions/5.md, 6.md, 7.md). -/
def Obligations.UnspecifiedBitsNeverReachTheHost : Prop :=
  ∀ s u s' : State, s.Inv → s.B.wf = true → u.B.wf = true → s.Agree u → step s = .next s' → ∃ u', step u = .next u' ∧ s'.Agree u'
end

