-- ==== Sys2Proof/Config.lean ====
section
/-! DEFINITION. The interface parameters the spec leaves OPEN "as a named argument of the model" (00_scope R6). They are
constants without a body: nothing can evaluate them, and no rule of the spec depends on them (notes/assumptions/14.md). The
parameters the spec fixes are in the model's types: `CMD_WIDTH` and `RSP_WIDTH` in Word.lean, `N_FAULT_CAUSES` in the type of
causes, `SCHEDULE_MODE` = precompute and the 147 steps of `MICROSTEP_GRANULARITY` in the sequencer. -/

namespace Sys2Proof

/-- `CYCLES_PER_STEP`: clock cycles per engine step, OPEN (R6, 70 R197). The model has no time and reads it nowhere. -/
opaque Config.cyclesPerStep : Nat

/-- `RESET_POLARITY`: whether `rst` is active high, OPEN (R6, 70 R190). No rule depends on it. -/
opaque Config.resetActiveHigh : Bool

/-- `RESET_SYNCHRONY`: whether `rst` is sampled by `clk`, OPEN (R6, 70 R190). No rule depends on it. -/
opaque Config.resetSynchronous : Bool

end Sys2Proof
end

