-- ==== Sys2Proof/Laws/Decode.lean ====
section
/-! SUPPORT. The fields of a word put together from fields, and what decoding a sequencer word gives. -/

namespace Sys2Proof

@[simp] theorem cmdOp_append (op : BitVec 4) (idx : BitVec 8) (data : Word) : cmdOp (op ++ idx ++ data) = op := by
  apply BitVec.eq_of_getLsbD_eq
  intro i hi
  simp only [cmdOp, BitVec.getLsbD_extractLsb', BitVec.getLsbD_append]
  simp [hi, show ¬ (40 + i < 32) by omega, show ¬ (40 + i - 32 < 8) by omega, show 40 + i - 32 - 8 = i by omega]

@[simp] theorem cmdIdx_append (op : BitVec 4) (idx : BitVec 8) (data : Word) : cmdIdx (op ++ idx ++ data) = idx := by
  apply BitVec.eq_of_getLsbD_eq
  intro i hi
  simp only [cmdIdx, BitVec.getLsbD_extractLsb', BitVec.getLsbD_append]
  simp [hi, show ¬ (32 + i < 32) by omega, show 32 + i - 32 = i by omega]

@[simp] theorem cmdData_append (op : BitVec 4) (idx : BitVec 8) (data : Word) : cmdData (op ++ idx ++ data) = data := by
  apply BitVec.eq_of_getLsbD_eq
  intro i hi
  simp only [cmdData, BitVec.getLsbD_extractLsb', BitVec.getLsbD_append]
  simp [hi]

/-- A command word is its three fields. -/
theorem cmd_fields (w : CmdWord) : cmdOp w ++ cmdIdx w ++ cmdData w = w := by
  apply BitVec.eq_of_getLsbD_eq
  intro i hi
  simp only [cmdOp, cmdIdx, cmdData, BitVec.getLsbD_append, BitVec.getLsbD_extractLsb']
  by_cases h1 : i < 32
  · simp [h1]
  · by_cases h2 : i < 40
    · simp [h1, show i - 32 < 8 by omega, show 32 + (i - 32) = i by omega]
    · simp [h1, show ¬ (i - 32 < 8) by omega, show i - 32 - 8 < 4 by omega, show 40 + (i - 32 - 8) = i by omega]

@[simp] theorem seqPhase_append (p : BitVec 3) (t : BitVec 7) : seqPhase (p ++ t) = p := by
  apply BitVec.eq_of_getLsbD_eq
  intro i hi
  simp only [seqPhase, BitVec.getLsbD_extractLsb', BitVec.getLsbD_append]
  simp [hi, show ¬ (7 + i < 7) by omega]

@[simp] theorem seqT_append (p : BitVec 3) (t : BitVec 7) : seqT (p ++ t) = t := by
  apply BitVec.eq_of_getLsbD_eq
  intro i hi
  simp only [seqT, BitVec.getLsbD_extractLsb', BitVec.getLsbD_append]
  simp [hi]

/-- A sequencer word is its two fields. -/
theorem seq_fields (w : SeqWord) : seqPhase w ++ seqT w = w := by
  apply BitVec.eq_of_getLsbD_eq
  intro i hi
  simp only [seqPhase, seqT, BitVec.getLsbD_append, BitVec.getLsbD_extractLsb']
  by_cases h1 : i < 7
  · simp [h1]
  · simp [h1, show i - 7 < 3 by omega, show 7 + (i - 7) = i by omega]

@[simp] theorem decodeSeq_append (p : BitVec 3) (t : BitVec 7) : decodeSeq (p ++ t) = decodeSeqFields p t := by
  simp [decodeSeq]

theorem tInRange_iff {lo hi : Nat} {t : BitVec 7} : tInRange lo hi t = true ↔ lo ≤ t.toNat ∧ t.toNat ≤ hi := by
  simp [tInRange]

end Sys2Proof
end

