-- ==== Sys2Proof/Laws/State.lean ====
section
/-! SUPPORT. One lemma per field per update of State, so that no later proof unfolds a record update. -/

namespace Sys2Proof.Machine

variable (s : State)

@[simp] theorem State.writeByte_H (n : Fin 64) (v : Byte) : (s.writeByte n v).H = s.H := rfl
@[simp] theorem State.writeByte_HV (n : Fin 64) (v : Byte) : (s.writeByte n v).HV = s.HV := rfl
@[simp] theorem State.writeByte_B (n : Fin 64) (v : Byte) : (s.writeByte n v).B = s.B.write n.val v := rfl
@[simp] theorem State.writeByte_BV (n : Fin 64) (v : Byte) : (s.writeByte n v).BV = s.BV ||| BitVec.twoPow 64 n.val := rfl
@[simp] theorem State.writeByte_W (n : Fin 64) (v : Byte) : (s.writeByte n v).W = s.W := rfl
@[simp] theorem State.writeByte_a (n : Fin 64) (v : Byte) : (s.writeByte n v).a = s.a := rfl
@[simp] theorem State.writeByte_b (n : Fin 64) (v : Byte) : (s.writeByte n v).b = s.b := rfl
@[simp] theorem State.writeByte_c (n : Fin 64) (v : Byte) : (s.writeByte n v).c = s.c := rfl
@[simp] theorem State.writeByte_d (n : Fin 64) (v : Byte) : (s.writeByte n v).d = s.d := rfl
@[simp] theorem State.writeByte_e (n : Fin 64) (v : Byte) : (s.writeByte n v).e = s.e := rfl
@[simp] theorem State.writeByte_phase (n : Fin 64) (v : Byte) : (s.writeByte n v).phase = s.phase := rfl
@[simp] theorem State.writeByte_t (n : Fin 64) (v : Byte) : (s.writeByte n v).t = s.t := rfl
@[simp] theorem State.writeByte_fault (n : Fin 64) (v : Byte) : (s.writeByte n v).fault = s.fault := rfl
@[simp] theorem State.writeByte_host (n : Fin 64) (v : Byte) : (s.writeByte n v).host = s.host := rfl
@[simp] theorem State.writeByte_responses (n : Fin 64) (v : Byte) : (s.writeByte n v).responses = s.responses := rfl
@[simp] theorem State.writeByte_readH (n : Fin 64) (v : Byte) (i : Fin 5) : (s.writeByte n v).readH i = s.readH i := rfl
@[simp] theorem State.writeByte_validH (n : Fin 64) (v : Byte) (i : Fin 5) : (s.writeByte n v).validH i = s.validH i := rfl

@[simp] theorem State.writeH_H (i : Fin 5) (v : Word) : (s.writeH i v).H = s.H.set i.val v := rfl
@[simp] theorem State.writeH_HV (i : Fin 5) (v : Word) : (s.writeH i v).HV = s.HV ||| BitVec.twoPow 5 i.val := rfl
@[simp] theorem State.writeH_B (i : Fin 5) (v : Word) : (s.writeH i v).B = s.B := rfl
@[simp] theorem State.writeH_BV (i : Fin 5) (v : Word) : (s.writeH i v).BV = s.BV := rfl
@[simp] theorem State.writeH_W (i : Fin 5) (v : Word) : (s.writeH i v).W = s.W := rfl
@[simp] theorem State.writeH_a (i : Fin 5) (v : Word) : (s.writeH i v).a = s.a := rfl
@[simp] theorem State.writeH_b (i : Fin 5) (v : Word) : (s.writeH i v).b = s.b := rfl
@[simp] theorem State.writeH_c (i : Fin 5) (v : Word) : (s.writeH i v).c = s.c := rfl
@[simp] theorem State.writeH_d (i : Fin 5) (v : Word) : (s.writeH i v).d = s.d := rfl
@[simp] theorem State.writeH_e (i : Fin 5) (v : Word) : (s.writeH i v).e = s.e := rfl
@[simp] theorem State.writeH_phase (i : Fin 5) (v : Word) : (s.writeH i v).phase = s.phase := rfl
@[simp] theorem State.writeH_t (i : Fin 5) (v : Word) : (s.writeH i v).t = s.t := rfl
@[simp] theorem State.writeH_fault (i : Fin 5) (v : Word) : (s.writeH i v).fault = s.fault := rfl
@[simp] theorem State.writeH_host (i : Fin 5) (v : Word) : (s.writeH i v).host = s.host := rfl
@[simp] theorem State.writeH_responses (i : Fin 5) (v : Word) : (s.writeH i v).responses = s.responses := rfl
@[simp] theorem State.writeH_readByte (i : Fin 5) (v : Word) (m : Fin 64) : (s.writeH i v).readByte m = s.readByte m := rfl
@[simp] theorem State.writeH_validB (i : Fin 5) (v : Word) (m : Fin 64) : (s.writeH i v).validB m = s.validB m := rfl

@[simp] theorem State.setH_H (h : Vector Word 5) : (s.setH h).H = h := rfl
@[simp] theorem State.setH_HV (h : Vector Word 5) : (s.setH h).HV = s.HV := rfl
@[simp] theorem State.setH_B (h : Vector Word 5) : (s.setH h).B = s.B := rfl
@[simp] theorem State.setH_BV (h : Vector Word 5) : (s.setH h).BV = s.BV := rfl
@[simp] theorem State.setH_W (h : Vector Word 5) : (s.setH h).W = s.W := rfl
@[simp] theorem State.setH_a (h : Vector Word 5) : (s.setH h).a = s.a := rfl
@[simp] theorem State.setH_b (h : Vector Word 5) : (s.setH h).b = s.b := rfl
@[simp] theorem State.setH_c (h : Vector Word 5) : (s.setH h).c = s.c := rfl
@[simp] theorem State.setH_d (h : Vector Word 5) : (s.setH h).d = s.d := rfl
@[simp] theorem State.setH_e (h : Vector Word 5) : (s.setH h).e = s.e := rfl
@[simp] theorem State.setH_phase (h : Vector Word 5) : (s.setH h).phase = s.phase := rfl
@[simp] theorem State.setH_t (h : Vector Word 5) : (s.setH h).t = s.t := rfl
@[simp] theorem State.setH_fault (h : Vector Word 5) : (s.setH h).fault = s.fault := rfl
@[simp] theorem State.setH_host (h : Vector Word 5) : (s.setH h).host = s.host := rfl
@[simp] theorem State.setH_responses (h : Vector Word 5) : (s.setH h).responses = s.responses := rfl
@[simp] theorem State.setH_validH (h : Vector Word 5) (i : Fin 5) : (s.setH h).validH i = s.validH i := rfl
@[simp] theorem State.setH_readByte (h : Vector Word 5) (m : Fin 64) : (s.setH h).readByte m = s.readByte m := rfl
@[simp] theorem State.setH_validB (h : Vector Word 5) (m : Fin 64) : (s.setH h).validB m = s.validB m := rfl

@[simp] theorem State.setW_H (w : Vector Word 80) : (s.setW w).H = s.H := rfl
@[simp] theorem State.setW_HV (w : Vector Word 80) : (s.setW w).HV = s.HV := rfl
@[simp] theorem State.setW_B (w : Vector Word 80) : (s.setW w).B = s.B := rfl
@[simp] theorem State.setW_BV (w : Vector Word 80) : (s.setW w).BV = s.BV := rfl
@[simp] theorem State.setW_W (w : Vector Word 80) : (s.setW w).W = w := rfl
@[simp] theorem State.setW_a (w : Vector Word 80) : (s.setW w).a = s.a := rfl
@[simp] theorem State.setW_b (w : Vector Word 80) : (s.setW w).b = s.b := rfl
@[simp] theorem State.setW_c (w : Vector Word 80) : (s.setW w).c = s.c := rfl
@[simp] theorem State.setW_d (w : Vector Word 80) : (s.setW w).d = s.d := rfl
@[simp] theorem State.setW_e (w : Vector Word 80) : (s.setW w).e = s.e := rfl
@[simp] theorem State.setW_phase (w : Vector Word 80) : (s.setW w).phase = s.phase := rfl
@[simp] theorem State.setW_t (w : Vector Word 80) : (s.setW w).t = s.t := rfl
@[simp] theorem State.setW_fault (w : Vector Word 80) : (s.setW w).fault = s.fault := rfl
@[simp] theorem State.setW_host (w : Vector Word 80) : (s.setW w).host = s.host := rfl
@[simp] theorem State.setW_responses (w : Vector Word 80) : (s.setW w).responses = s.responses := rfl
@[simp] theorem State.setW_readH (w : Vector Word 80) (i : Fin 5) : (s.setW w).readH i = s.readH i := rfl
@[simp] theorem State.setW_validH (w : Vector Word 80) (i : Fin 5) : (s.setW w).validH i = s.validH i := rfl
@[simp] theorem State.setW_readByte (w : Vector Word 80) (m : Fin 64) : (s.setW w).readByte m = s.readByte m := rfl
@[simp] theorem State.setW_validB (w : Vector Word 80) (m : Fin 64) : (s.setW w).validB m = s.validB m := rfl

@[simp] theorem State.clearBV_H : (s.clearBV).H = s.H := rfl
@[simp] theorem State.clearBV_HV : (s.clearBV).HV = s.HV := rfl
@[simp] theorem State.clearBV_B : (s.clearBV).B = s.B := rfl
@[simp] theorem State.clearBV_BV : (s.clearBV).BV = 0 := rfl
@[simp] theorem State.clearBV_W : (s.clearBV).W = s.W := rfl
@[simp] theorem State.clearBV_a : (s.clearBV).a = s.a := rfl
@[simp] theorem State.clearBV_b : (s.clearBV).b = s.b := rfl
@[simp] theorem State.clearBV_c : (s.clearBV).c = s.c := rfl
@[simp] theorem State.clearBV_d : (s.clearBV).d = s.d := rfl
@[simp] theorem State.clearBV_e : (s.clearBV).e = s.e := rfl
@[simp] theorem State.clearBV_phase : (s.clearBV).phase = s.phase := rfl
@[simp] theorem State.clearBV_t : (s.clearBV).t = s.t := rfl
@[simp] theorem State.clearBV_fault : (s.clearBV).fault = s.fault := rfl
@[simp] theorem State.clearBV_host : (s.clearBV).host = s.host := rfl
@[simp] theorem State.clearBV_responses : (s.clearBV).responses = s.responses := rfl
@[simp] theorem State.clearBV_readH (i : Fin 5) : (s.clearBV).readH i = s.readH i := rfl
@[simp] theorem State.clearBV_validH (i : Fin 5) : (s.clearBV).validH i = s.validH i := rfl
@[simp] theorem State.clearBV_readByte (m : Fin 64) : (s.clearBV).readByte m = s.readByte m := rfl

@[simp] theorem State.setRegs_H (a b c d e : Word) : (s.setRegs a b c d e).H = s.H := rfl
@[simp] theorem State.setRegs_HV (a b c d e : Word) : (s.setRegs a b c d e).HV = s.HV := rfl
@[simp] theorem State.setRegs_B (a b c d e : Word) : (s.setRegs a b c d e).B = s.B := rfl
@[simp] theorem State.setRegs_BV (a b c d e : Word) : (s.setRegs a b c d e).BV = s.BV := rfl
@[simp] theorem State.setRegs_W (a b c d e : Word) : (s.setRegs a b c d e).W = s.W := rfl
@[simp] theorem State.setRegs_a (a b c d e : Word) : (s.setRegs a b c d e).a = a := rfl
@[simp] theorem State.setRegs_b (a b c d e : Word) : (s.setRegs a b c d e).b = b := rfl
@[simp] theorem State.setRegs_c (a b c d e : Word) : (s.setRegs a b c d e).c = c := rfl
@[simp] theorem State.setRegs_d (a b c d e : Word) : (s.setRegs a b c d e).d = d := rfl
@[simp] theorem State.setRegs_e (a b c d e : Word) : (s.setRegs a b c d e).e = e := rfl
@[simp] theorem State.setRegs_phase (a b c d e : Word) : (s.setRegs a b c d e).phase = s.phase := rfl
@[simp] theorem State.setRegs_t (a b c d e : Word) : (s.setRegs a b c d e).t = s.t := rfl
@[simp] theorem State.setRegs_fault (a b c d e : Word) : (s.setRegs a b c d e).fault = s.fault := rfl
@[simp] theorem State.setRegs_host (a b c d e : Word) : (s.setRegs a b c d e).host = s.host := rfl
@[simp] theorem State.setRegs_responses (a b c d e : Word) : (s.setRegs a b c d e).responses = s.responses := rfl
@[simp] theorem State.setRegs_readH (a b c d e : Word) (i : Fin 5) : (s.setRegs a b c d e).readH i = s.readH i := rfl
@[simp] theorem State.setRegs_validH (a b c d e : Word) (i : Fin 5) : (s.setRegs a b c d e).validH i = s.validH i := rfl
@[simp] theorem State.setRegs_readByte (a b c d e : Word) (m : Fin 64) : (s.setRegs a b c d e).readByte m = s.readByte m := rfl
@[simp] theorem State.setRegs_validB (a b c d e : Word) (m : Fin 64) : (s.setRegs a b c d e).validB m = s.validB m := rfl

@[simp] theorem State.enter_H (p : Phase) (n : BitVec 7) : (s.enter p n).H = s.H := rfl
@[simp] theorem State.enter_HV (p : Phase) (n : BitVec 7) : (s.enter p n).HV = s.HV := rfl
@[simp] theorem State.enter_B (p : Phase) (n : BitVec 7) : (s.enter p n).B = s.B := rfl
@[simp] theorem State.enter_BV (p : Phase) (n : BitVec 7) : (s.enter p n).BV = s.BV := rfl
@[simp] theorem State.enter_W (p : Phase) (n : BitVec 7) : (s.enter p n).W = s.W := rfl
@[simp] theorem State.enter_a (p : Phase) (n : BitVec 7) : (s.enter p n).a = s.a := rfl
@[simp] theorem State.enter_b (p : Phase) (n : BitVec 7) : (s.enter p n).b = s.b := rfl
@[simp] theorem State.enter_c (p : Phase) (n : BitVec 7) : (s.enter p n).c = s.c := rfl
@[simp] theorem State.enter_d (p : Phase) (n : BitVec 7) : (s.enter p n).d = s.d := rfl
@[simp] theorem State.enter_e (p : Phase) (n : BitVec 7) : (s.enter p n).e = s.e := rfl
@[simp] theorem State.enter_phase (p : Phase) (n : BitVec 7) : (s.enter p n).phase = p := rfl
@[simp] theorem State.enter_t (p : Phase) (n : BitVec 7) : (s.enter p n).t = n := rfl
@[simp] theorem State.enter_fault (p : Phase) (n : BitVec 7) : (s.enter p n).fault = s.fault := rfl
@[simp] theorem State.enter_host (p : Phase) (n : BitVec 7) : (s.enter p n).host = s.host := rfl
@[simp] theorem State.enter_responses (p : Phase) (n : BitVec 7) : (s.enter p n).responses = s.responses := rfl
@[simp] theorem State.enter_readH (p : Phase) (n : BitVec 7) (i : Fin 5) : (s.enter p n).readH i = s.readH i := rfl
@[simp] theorem State.enter_validH (p : Phase) (n : BitVec 7) (i : Fin 5) : (s.enter p n).validH i = s.validH i := rfl
@[simp] theorem State.enter_readByte (p : Phase) (n : BitVec 7) (m : Fin 64) : (s.enter p n).readByte m = s.readByte m := rfl
@[simp] theorem State.enter_validB (p : Phase) (n : BitVec 7) (m : Fin 64) : (s.enter p n).validB m = s.validB m := rfl

@[simp] theorem State.respond_H (c : Cause) (r : Word) : (s.respond c r).H = s.H := rfl
@[simp] theorem State.respond_HV (c : Cause) (r : Word) : (s.respond c r).HV = s.HV := rfl
@[simp] theorem State.respond_B (c : Cause) (r : Word) : (s.respond c r).B = s.B := rfl
@[simp] theorem State.respond_BV (c : Cause) (r : Word) : (s.respond c r).BV = s.BV := rfl
@[simp] theorem State.respond_W (c : Cause) (r : Word) : (s.respond c r).W = s.W := rfl
@[simp] theorem State.respond_a (c : Cause) (r : Word) : (s.respond c r).a = s.a := rfl
@[simp] theorem State.respond_b (c : Cause) (r : Word) : (s.respond c r).b = s.b := rfl
@[simp] theorem State.respond_c (c : Cause) (r : Word) : (s.respond c r).c = s.c := rfl
@[simp] theorem State.respond_d (c : Cause) (r : Word) : (s.respond c r).d = s.d := rfl
@[simp] theorem State.respond_e (c : Cause) (r : Word) : (s.respond c r).e = s.e := rfl
@[simp] theorem State.respond_phase (c : Cause) (r : Word) : (s.respond c r).phase = s.phase := rfl
@[simp] theorem State.respond_t (c : Cause) (r : Word) : (s.respond c r).t = s.t := rfl
@[simp] theorem State.respond_fault (c : Cause) (r : Word) : (s.respond c r).fault = s.fault := rfl
@[simp] theorem State.respond_host (c : Cause) (r : Word) : (s.respond c r).host = s.host := rfl
@[simp] theorem State.respond_responses (c : Cause) (r : Word) : (s.respond c r).responses = s.responses ++ [response c r] := rfl
@[simp] theorem State.respond_readH (c : Cause) (r : Word) (i : Fin 5) : (s.respond c r).readH i = s.readH i := rfl
@[simp] theorem State.respond_validH (c : Cause) (r : Word) (i : Fin 5) : (s.respond c r).validH i = s.validH i := rfl
@[simp] theorem State.respond_readByte (c : Cause) (r : Word) (m : Fin 64) : (s.respond c r).readByte m = s.readByte m := rfl
@[simp] theorem State.respond_validB (c : Cause) (r : Word) (m : Fin 64) : (s.respond c r).validB m = s.validB m := rfl

@[simp] theorem State.recordFault_H (c : Cause) : (s.recordFault c).H = s.H := rfl
@[simp] theorem State.recordFault_HV (c : Cause) : (s.recordFault c).HV = s.HV := rfl
@[simp] theorem State.recordFault_B (c : Cause) : (s.recordFault c).B = s.B := rfl
@[simp] theorem State.recordFault_BV (c : Cause) : (s.recordFault c).BV = s.BV := rfl
@[simp] theorem State.recordFault_W (c : Cause) : (s.recordFault c).W = s.W := rfl
@[simp] theorem State.recordFault_a (c : Cause) : (s.recordFault c).a = s.a := rfl
@[simp] theorem State.recordFault_b (c : Cause) : (s.recordFault c).b = s.b := rfl
@[simp] theorem State.recordFault_c (c : Cause) : (s.recordFault c).c = s.c := rfl
@[simp] theorem State.recordFault_d (c : Cause) : (s.recordFault c).d = s.d := rfl
@[simp] theorem State.recordFault_e (c : Cause) : (s.recordFault c).e = s.e := rfl
@[simp] theorem State.recordFault_phase (c : Cause) : (s.recordFault c).phase = s.phase := rfl
@[simp] theorem State.recordFault_t (c : Cause) : (s.recordFault c).t = s.t := rfl
@[simp] theorem State.recordFault_fault (c : Cause) : (s.recordFault c).fault = s.fault.sticky c := rfl
@[simp] theorem State.recordFault_host (c : Cause) : (s.recordFault c).host = s.host := rfl
@[simp] theorem State.recordFault_responses (c : Cause) : (s.recordFault c).responses = s.responses := rfl
@[simp] theorem State.recordFault_readH (c : Cause) (i : Fin 5) : (s.recordFault c).readH i = s.readH i := rfl
@[simp] theorem State.recordFault_validH (c : Cause) (i : Fin 5) : (s.recordFault c).validH i = s.validH i := rfl
@[simp] theorem State.recordFault_readByte (c : Cause) (m : Fin 64) : (s.recordFault c).readByte m = s.readByte m := rfl
@[simp] theorem State.recordFault_validB (c : Cause) (m : Fin 64) : (s.recordFault c).validB m = s.validB m := rfl

@[simp] theorem State.answered_H (r : Word) : (s.answered r).H = s.H := rfl
@[simp] theorem State.answered_HV (r : Word) : (s.answered r).HV = s.HV := rfl
@[simp] theorem State.answered_B (r : Word) : (s.answered r).B = s.B := rfl
@[simp] theorem State.answered_BV (r : Word) : (s.answered r).BV = s.BV := rfl
@[simp] theorem State.answered_W (r : Word) : (s.answered r).W = s.W := rfl
@[simp] theorem State.answered_a (r : Word) : (s.answered r).a = s.a := rfl
@[simp] theorem State.answered_b (r : Word) : (s.answered r).b = s.b := rfl
@[simp] theorem State.answered_c (r : Word) : (s.answered r).c = s.c := rfl
@[simp] theorem State.answered_d (r : Word) : (s.answered r).d = s.d := rfl
@[simp] theorem State.answered_e (r : Word) : (s.answered r).e = s.e := rfl
@[simp] theorem State.answered_phase (r : Word) : (s.answered r).phase = s.phase := rfl
@[simp] theorem State.answered_t (r : Word) : (s.answered r).t = s.t := rfl
@[simp] theorem State.answered_fault (r : Word) : (s.answered r).fault = s.fault := rfl
@[simp] theorem State.answered_host (r : Word) : (s.answered r).host = s.host := rfl
@[simp] theorem State.answered_responses (r : Word) : (s.answered r).responses = s.responses ++ [(0 : BitVec 3) ++ r] := rfl
@[simp] theorem State.answered_readH (r : Word) (i : Fin 5) : (s.answered r).readH i = s.readH i := rfl
@[simp] theorem State.answered_validH (r : Word) (i : Fin 5) : (s.answered r).validH i = s.validH i := rfl
@[simp] theorem State.answered_readByte (r : Word) (m : Fin 64) : (s.answered r).readByte m = s.readByte m := rfl
@[simp] theorem State.answered_validB (r : Word) (m : Fin 64) : (s.answered r).validB m = s.validB m := rfl

@[simp] theorem State.faulted_H (c : Cause) : (s.faulted c).H = s.H := rfl
@[simp] theorem State.faulted_HV (c : Cause) : (s.faulted c).HV = s.HV := rfl
@[simp] theorem State.faulted_B (c : Cause) : (s.faulted c).B = s.B := rfl
@[simp] theorem State.faulted_BV (c : Cause) : (s.faulted c).BV = s.BV := rfl
@[simp] theorem State.faulted_W (c : Cause) : (s.faulted c).W = s.W := rfl
@[simp] theorem State.faulted_a (c : Cause) : (s.faulted c).a = s.a := rfl
@[simp] theorem State.faulted_b (c : Cause) : (s.faulted c).b = s.b := rfl
@[simp] theorem State.faulted_c (c : Cause) : (s.faulted c).c = s.c := rfl
@[simp] theorem State.faulted_d (c : Cause) : (s.faulted c).d = s.d := rfl
@[simp] theorem State.faulted_e (c : Cause) : (s.faulted c).e = s.e := rfl
@[simp] theorem State.faulted_phase (c : Cause) : (s.faulted c).phase = s.phase := rfl
@[simp] theorem State.faulted_t (c : Cause) : (s.faulted c).t = s.t := rfl
@[simp] theorem State.faulted_fault (c : Cause) : (s.faulted c).fault = if s.fault = .noFault then c else s.fault := rfl
@[simp] theorem State.faulted_host (c : Cause) : (s.faulted c).host = s.host := rfl
@[simp] theorem State.faulted_responses (c : Cause) : (s.faulted c).responses = s.responses ++ [c.code ++ (0 : Word)] := rfl
@[simp] theorem State.faulted_readH (c : Cause) (i : Fin 5) : (s.faulted c).readH i = s.readH i := rfl
@[simp] theorem State.faulted_validH (c : Cause) (i : Fin 5) : (s.faulted c).validH i = s.validH i := rfl
@[simp] theorem State.faulted_readByte (c : Cause) (m : Fin 64) : (s.faulted c).readByte m = s.readByte m := rfl
@[simp] theorem State.faulted_validB (c : Cause) (m : Fin 64) : (s.faulted c).validB m = s.validB m := rfl

@[simp] theorem State.takeCommand_H : (s.takeCommand).H = s.H := rfl
@[simp] theorem State.takeCommand_HV : (s.takeCommand).HV = s.HV := rfl
@[simp] theorem State.takeCommand_B : (s.takeCommand).B = s.B := rfl
@[simp] theorem State.takeCommand_BV : (s.takeCommand).BV = s.BV := rfl
@[simp] theorem State.takeCommand_W : (s.takeCommand).W = s.W := rfl
@[simp] theorem State.takeCommand_a : (s.takeCommand).a = s.a := rfl
@[simp] theorem State.takeCommand_b : (s.takeCommand).b = s.b := rfl
@[simp] theorem State.takeCommand_c : (s.takeCommand).c = s.c := rfl
@[simp] theorem State.takeCommand_d : (s.takeCommand).d = s.d := rfl
@[simp] theorem State.takeCommand_e : (s.takeCommand).e = s.e := rfl
@[simp] theorem State.takeCommand_phase : (s.takeCommand).phase = s.phase := rfl
@[simp] theorem State.takeCommand_t : (s.takeCommand).t = s.t := rfl
@[simp] theorem State.takeCommand_fault : (s.takeCommand).fault = s.fault := rfl
@[simp] theorem State.takeCommand_host : (s.takeCommand).host = s.host.tail := rfl
@[simp] theorem State.takeCommand_responses : (s.takeCommand).responses = s.responses := rfl
@[simp] theorem State.takeCommand_readH (i : Fin 5) : (s.takeCommand).readH i = s.readH i := rfl
@[simp] theorem State.takeCommand_validH (i : Fin 5) : (s.takeCommand).validH i = s.validH i := rfl
@[simp] theorem State.takeCommand_readByte (m : Fin 64) : (s.takeCommand).readByte m = s.readByte m := rfl
@[simp] theorem State.takeCommand_validB (m : Fin 64) : (s.takeCommand).validB m = s.validB m := rfl

@[simp] theorem State.writeWord_H (j : Fin 16) (v : Word) : (s.writeWord j v).H = s.H := rfl
@[simp] theorem State.writeWord_HV (j : Fin 16) (v : Word) : (s.writeWord j v).HV = s.HV := rfl
@[simp] theorem State.writeWord_B (j : Fin 16) (v : Word) : (s.writeWord j v).B = (((s.B.write (byteOfWord j 0).val (v.extractLsb' 24 8)).write (byteOfWord j 1).val (v.extractLsb' 16 8)).write (byteOfWord j 2).val
      (v.extractLsb' 8 8)).write (byteOfWord j 3).val (v.extractLsb' 0 8) := rfl
@[simp] theorem State.writeWord_BV (j : Fin 16) (v : Word) : (s.writeWord j v).BV = s.BV ||| BitVec.twoPow 64 (byteOfWord j 0).val ||| BitVec.twoPow 64 (byteOfWord j 1).val |||
      BitVec.twoPow 64 (byteOfWord j 2).val ||| BitVec.twoPow 64 (byteOfWord j 3).val := rfl
@[simp] theorem State.writeWord_W (j : Fin 16) (v : Word) : (s.writeWord j v).W = s.W := rfl
@[simp] theorem State.writeWord_a (j : Fin 16) (v : Word) : (s.writeWord j v).a = s.a := rfl
@[simp] theorem State.writeWord_b (j : Fin 16) (v : Word) : (s.writeWord j v).b = s.b := rfl
@[simp] theorem State.writeWord_c (j : Fin 16) (v : Word) : (s.writeWord j v).c = s.c := rfl
@[simp] theorem State.writeWord_d (j : Fin 16) (v : Word) : (s.writeWord j v).d = s.d := rfl
@[simp] theorem State.writeWord_e (j : Fin 16) (v : Word) : (s.writeWord j v).e = s.e := rfl
@[simp] theorem State.writeWord_phase (j : Fin 16) (v : Word) : (s.writeWord j v).phase = s.phase := rfl
@[simp] theorem State.writeWord_t (j : Fin 16) (v : Word) : (s.writeWord j v).t = s.t := rfl
@[simp] theorem State.writeWord_fault (j : Fin 16) (v : Word) : (s.writeWord j v).fault = s.fault := rfl
@[simp] theorem State.writeWord_host (j : Fin 16) (v : Word) : (s.writeWord j v).host = s.host := rfl
@[simp] theorem State.writeWord_responses (j : Fin 16) (v : Word) : (s.writeWord j v).responses = s.responses := rfl

@[simp] theorem State.advance_H (k : Fin 80) (stay leave : Phase) : (s.advance k stay leave).H = s.H := by
  unfold State.advance; split <;> rfl
@[simp] theorem State.advance_HV (k : Fin 80) (stay leave : Phase) : (s.advance k stay leave).HV = s.HV := by
  unfold State.advance; split <;> rfl
@[simp] theorem State.advance_B (k : Fin 80) (stay leave : Phase) : (s.advance k stay leave).B = s.B := by
  unfold State.advance; split <;> rfl
@[simp] theorem State.advance_BV (k : Fin 80) (stay leave : Phase) : (s.advance k stay leave).BV = s.BV := by
  unfold State.advance; split <;> rfl
@[simp] theorem State.advance_W (k : Fin 80) (stay leave : Phase) : (s.advance k stay leave).W = s.W := by
  unfold State.advance; split <;> rfl
@[simp] theorem State.advance_a (k : Fin 80) (stay leave : Phase) : (s.advance k stay leave).a = s.a := by
  unfold State.advance; split <;> rfl
@[simp] theorem State.advance_b (k : Fin 80) (stay leave : Phase) : (s.advance k stay leave).b = s.b := by
  unfold State.advance; split <;> rfl
@[simp] theorem State.advance_c (k : Fin 80) (stay leave : Phase) : (s.advance k stay leave).c = s.c := by
  unfold State.advance; split <;> rfl
@[simp] theorem State.advance_d (k : Fin 80) (stay leave : Phase) : (s.advance k stay leave).d = s.d := by
  unfold State.advance; split <;> rfl
@[simp] theorem State.advance_e (k : Fin 80) (stay leave : Phase) : (s.advance k stay leave).e = s.e := by
  unfold State.advance; split <;> rfl
@[simp] theorem State.advance_phase (k : Fin 80) (stay leave : Phase) : (s.advance k stay leave).phase = if k.val = 79 then leave else stay := by
  unfold State.advance; split <;> rfl
@[simp] theorem State.advance_t (k : Fin 80) (stay leave : Phase) : (s.advance k stay leave).t = if k.val = 79 then 0 else BitVec.ofNat 7 (k.val + 1) := by
  unfold State.advance; split <;> rfl
@[simp] theorem State.advance_fault (k : Fin 80) (stay leave : Phase) : (s.advance k stay leave).fault = s.fault := by
  unfold State.advance; split <;> rfl
@[simp] theorem State.advance_host (k : Fin 80) (stay leave : Phase) : (s.advance k stay leave).host = s.host := by
  unfold State.advance; split <;> rfl
@[simp] theorem State.advance_responses (k : Fin 80) (stay leave : Phase) : (s.advance k stay leave).responses = s.responses := by
  unfold State.advance; split <;> rfl

@[simp] theorem State.assertRst_H (left : State) : (left.assertRst s).H = left.H := rfl
@[simp] theorem State.assertRst_HV (left : State) : (left.assertRst s).HV = 0 := rfl
@[simp] theorem State.assertRst_B (left : State) : (left.assertRst s).B = left.B := rfl
@[simp] theorem State.assertRst_BV (left : State) : (left.assertRst s).BV = 0 := rfl
@[simp] theorem State.assertRst_W (left : State) : (left.assertRst s).W = left.W := rfl
@[simp] theorem State.assertRst_a (left : State) : (left.assertRst s).a = left.a := rfl
@[simp] theorem State.assertRst_b (left : State) : (left.assertRst s).b = left.b := rfl
@[simp] theorem State.assertRst_c (left : State) : (left.assertRst s).c = left.c := rfl
@[simp] theorem State.assertRst_d (left : State) : (left.assertRst s).d = left.d := rfl
@[simp] theorem State.assertRst_e (left : State) : (left.assertRst s).e = left.e := rfl
@[simp] theorem State.assertRst_phase (left : State) : (left.assertRst s).phase = .idle := rfl
@[simp] theorem State.assertRst_t (left : State) : (left.assertRst s).t = 0 := rfl
@[simp] theorem State.assertRst_fault (left : State) : (left.assertRst s).fault = .noFault := rfl
@[simp] theorem State.assertRst_host (left : State) : (left.assertRst s).host = s.host := rfl
@[simp] theorem State.assertRst_responses (left : State) : (left.assertRst s).responses = s.responses := rfl

/-! The valid bits after the writes that set them. -/

@[simp] theorem State.clearBV_validB (m : Fin 64) : s.clearBV.validB m = false := by simp [State.validB]

theorem State.writeByte_validB (n : Fin 64) (v : Byte) (m : Fin 64) :
    (s.writeByte n v).validB m = (s.validB m || decide (n = m)) := by
  have hm := m.isLt
  simp only [State.validB, State.writeByte_BV, BitVec.getLsbD_or, BitVec.getLsbD_twoPow]
  by_cases e : n = m
  · subst e; simp
  · have : ¬ n.val = m.val := fun h => e (Fin.ext h)
    simp [e, this]

theorem State.writeH_validH (i : Fin 5) (v : Word) (j : Fin 5) :
    (s.writeH i v).validH j = (s.validH j || decide (i = j)) := by
  have hj := j.isLt
  simp only [State.validH, State.writeH_HV, BitVec.getLsbD_or, BitVec.getLsbD_twoPow]
  by_cases e : i = j
  · subst e; simp
  · have : ¬ i.val = j.val := fun h => e (Fin.ext h)
    simp [e, this]

theorem State.writeH_readH (i : Fin 5) (v : Word) (j : Fin 5) :
    (s.writeH i v).readH j = if i = j then v else s.readH j := by
  simp only [State.readH, State.writeH_H, Fin.getElem_fin, Vector.getElem_set, Fin.ext_iff]

theorem validH_of_full {s : State} (h : s.HV = fullHV) (i : Fin 5) : s.validH i = true := by
  unfold State.validH
  rw [h]
  revert i
  decide

theorem validB_of_full {s : State} (h : s.BV = fullBV) (n : Fin 64) : s.validB n = true := by
  unfold State.validB
  rw [h]
  revert n
  decide

end Sys2Proof.Machine
end

