-- ==== Sys2Proof/Laws/Memory.lean ====
section
/-! SUPPORT. The block buffer: a read after a write, the canonical form, and the byte and word operations over it. -/

namespace Sys2Proof.Machine

theorem Memory.wfFrom_mono (m : Memory) : ∀ {lo lo' : Nat}, lo' ≤ lo → m.wfFrom lo = true → m.wfFrom lo' = true := by
  cases m with
  | nil => intros; rfl
  | cons c m =>
    obtain ⟨k, v⟩ := c
    intro lo lo' hle h
    simp only [Memory.wfFrom, Bool.and_eq_true, decide_eq_true_eq] at h ⊢
    exact ⟨⟨⟨by omega, h.1.1.2⟩, h.1.2⟩, h.2⟩

/-- Below every listed address a canonical list reads as unlisted. -/
theorem Memory.read_below (m : Memory) :
    ∀ {lo n : Nat}, n < lo → m.wfFrom lo = true → m.read n = Memory.unlisted := by
  induction m with
  | nil => intros; rfl
  | cons c m ih =>
    obtain ⟨k, v⟩ := c
    intro lo n hn h
    simp only [Memory.wfFrom, Bool.and_eq_true, decide_eq_true_eq] at h
    have hk : k ≠ n := by omega
    simp only [Memory.read, if_neg hk]
    exact ih (lo := k + 1) (by omega) h.2

/-- A write leaves every other address alone, in canonical form or not. -/
theorem Memory.read_write_other (m : Memory) (n : Nat) (v : Byte) {k : Nat} (hk : k ≠ n) :
    (m.write n v).read k = m.read k := by
  induction m with
  | nil =>
    by_cases hv : v = Memory.unlisted
    · simp [Memory.write, hv, Memory.read]
    · simp [Memory.write, hv, Memory.read, Ne.symm hk]
  | cons c m ih =>
    obtain ⟨j, u⟩ := c
    rw [Memory.write]
    by_cases h1 : n < j
    · rw [if_pos h1]
      by_cases hv : v = Memory.unlisted
      · rw [if_pos hv]
      · rw [if_neg hv, Memory.read, if_neg (Ne.symm hk)]
    · rw [if_neg h1]
      by_cases h2 : n = j
      · subst h2
        by_cases hv : v = Memory.unlisted
        · simp [hv, Memory.read, Ne.symm hk]
        · simp [hv, Memory.read, Ne.symm hk]
      · rw [if_neg h2, Memory.read, Memory.read, ih]

/-- A read after a write to the same address gives the byte written. -/
theorem Memory.read_write_same (m : Memory) (n : Nat) (v : Byte) :
    ∀ {lo : Nat}, m.wfFrom lo = true → (m.write n v).read n = v := by
  induction m with
  | nil =>
    intro lo _
    by_cases hv : v = Memory.unlisted
    · simp [Memory.write, hv, Memory.read]
    · simp [Memory.write, hv, Memory.read]
  | cons c m ih =>
    obtain ⟨j, u⟩ := c
    intro lo h
    have h' := h
    simp only [Memory.wfFrom, Bool.and_eq_true, decide_eq_true_eq] at h'
    rw [Memory.write]
    by_cases h1 : n < j
    · rw [if_pos h1]
      by_cases hv : v = Memory.unlisted
      · rw [if_pos hv, hv, Memory.read, if_neg (by omega)]
        exact Memory.read_below m (lo := j + 1) (by omega) h'.2
      · rw [if_neg hv, Memory.read, if_pos rfl]
    · rw [if_neg h1]
      by_cases h2 : n = j
      · subst h2
        by_cases hv : v = Memory.unlisted
        · simp only [if_true, hv]
          exact Memory.read_below m (lo := n + 1) (by omega) h'.2
        · simp [hv, Memory.read]
      · rw [if_neg h2, Memory.read, if_neg (Ne.symm h2)]
        exact ih h'.2

/-- A write below address 64 keeps the canonical form. -/
theorem Memory.wfFrom_write (m : Memory) (n : Nat) (v : Byte) (hn : n < 64) :
    ∀ {lo : Nat}, lo ≤ n → m.wfFrom lo = true → (m.write n v).wfFrom lo = true := by
  induction m with
  | nil =>
    intro lo hlo _
    by_cases hv : v = Memory.unlisted
    · simp [Memory.write, hv, Memory.wfFrom]
    · simp [Memory.write, hv, Memory.wfFrom, hlo, hn]
  | cons c m ih =>
    obtain ⟨j, u⟩ := c
    intro lo hlo h
    have h' := h
    simp only [Memory.wfFrom, Bool.and_eq_true, decide_eq_true_eq] at h'
    rw [Memory.write]
    by_cases h1 : n < j
    · rw [if_pos h1]
      by_cases hv : v = Memory.unlisted
      · rw [if_pos hv]; exact h
      · rw [if_neg hv]
        simp only [Memory.wfFrom, Bool.and_eq_true, decide_eq_true_eq]
        exact ⟨⟨⟨hlo, hn⟩, hv⟩, ⟨⟨by omega, h'.1.1.2⟩, h'.1.2⟩, h'.2⟩
    · rw [if_neg h1]
      by_cases h2 : n = j
      · subst h2
        by_cases hv : v = Memory.unlisted
        · simp only [if_true, if_pos hv]
          exact Memory.wfFrom_mono m (by omega) h'.2
        · simp only [if_true, if_neg hv, Memory.wfFrom, Bool.and_eq_true, decide_eq_true_eq]
          exact ⟨⟨⟨hlo, hn⟩, hv⟩, h'.2⟩
      · rw [if_neg h2]
        simp only [Memory.wfFrom, Bool.and_eq_true, decide_eq_true_eq]
        exact ⟨⟨⟨h'.1.1.1, h'.1.1.2⟩, h'.1.2⟩, ih (by omega) h'.2⟩

theorem Memory.wf_write {m : Memory} (n : Fin 64) (v : Byte) (h : m.wf = true) : (m.write n.val v).wf = true :=
  Memory.wfFrom_write m n.val v n.isLt (Nat.zero_le _) h

/-- Two canonical lists that read alike are the same data. -/
theorem Memory.ext_of_wfFrom (m : Memory) : ∀ (m' : Memory) {lo : Nat}, m.wfFrom lo = true → m'.wfFrom lo = true →
    (∀ n, m.read n = m'.read n) → m = m' := by
  induction m with
  | nil =>
    intro m' lo _ h' hr
    cases m' with
    | nil => rfl
    | cons c m' =>
      obtain ⟨j, u⟩ := c
      simp only [Memory.wfFrom, Bool.and_eq_true, decide_eq_true_eq] at h'
      have := hr j
      simp only [Memory.read, if_true] at this
      exact absurd this.symm h'.1.2
  | cons c m ih =>
    obtain ⟨k, v⟩ := c
    intro m' lo h h' hr
    have hk := h
    simp only [Memory.wfFrom, Bool.and_eq_true, decide_eq_true_eq] at hk
    cases m' with
    | nil =>
      have := hr k
      simp only [Memory.read, if_true] at this
      exact absurd this hk.1.2
    | cons c' m' =>
      obtain ⟨j, u⟩ := c'
      have hj := h'
      simp only [Memory.wfFrom, Bool.and_eq_true, decide_eq_true_eq] at hj
      rcases Nat.lt_trichotomy k j with hlt | rfl | hlt
      · have := hr k
        rw [Memory.read, if_pos rfl, Memory.read, if_neg (by omega),
          Memory.read_below m' (lo := j + 1) (by omega) hj.2] at this
        exact absurd this hk.1.2
      · have hv := hr k
        simp only [Memory.read, if_true] at hv
        subst hv
        rw [ih m' hk.2 hj.2]
        intro n
        by_cases hn : k = n
        · subst hn
          rw [Memory.read_below m (lo := k + 1) (by omega) hk.2, Memory.read_below m' (lo := k + 1) (by omega) hj.2]
        · have := hr n
          simpa only [Memory.read, if_neg hn] using this
      · have := hr j
        rw [Memory.read, if_neg (by omega), Memory.read_below m (lo := k + 1) (by omega) hk.2, Memory.read,
          if_pos rfl] at this
        exact absurd this.symm hj.1.2

theorem Memory.ext_of_wf {m m' : Memory} (h : m.wf = true) (h' : m'.wf = true) (hr : ∀ n, m.read n = m'.read n) :
    m = m' :=
  Memory.ext_of_wfFrom m m' h h' hr

/-- Equal reads stay equal after the same write. -/
theorem Memory.read_write_congr {m m' : Memory} (h : m.wf = true) (h' : m'.wf = true) (n : Nat) (v : Byte) {k : Nat}
    (hk : k ≠ n → m.read k = m'.read k) : (m.write n v).read k = (m'.write n v).read k := by
  by_cases e : k = n
  · subst e
    rw [Memory.read_write_same m k v h, Memory.read_write_same m' k v h']
  · rw [Memory.read_write_other m n v e, Memory.read_write_other m' n v e, hk e]

theorem Memory.wf_nil : Memory.wf [] = true := rfl

theorem State.readByte_writeByte_same (s : State) (n : Fin 64) (v : Byte) (h : s.B.wf = true) :
    (s.writeByte n v).readByte n = v :=
  Memory.read_write_same s.B n.val v h

theorem State.readByte_writeByte_other (s : State) (n : Fin 64) (v : Byte) {m : Fin 64} (h : m ≠ n) :
    (s.writeByte n v).readByte m = s.readByte m :=
  Memory.read_write_other s.B n.val v (fun e => h (Fin.ext e))

theorem State.wf_writeByte (s : State) (n : Fin 64) (v : Byte) (h : s.B.wf = true) : (s.writeByte n v).B.wf = true :=
  Memory.wf_write n v h

theorem State.wf_writeWord (s : State) (j : Fin 16) (v : Word) (h : s.B.wf = true) : (s.writeWord j v).B.wf = true :=
  State.wf_writeByte _ _ _ (State.wf_writeByte _ _ _ (State.wf_writeByte _ _ _ (State.wf_writeByte s _ _ h)))

/-- WRW stores at the four bytes of its word and nowhere else. -/
theorem State.read_writeWord_other (s : State) (j : Fin 16) (v : Word) {a : Nat} (h : a / 4 ≠ j.val) :
    (s.writeWord j v).B.read a = s.B.read a := by
  have hb : ∀ k : Fin 4, a ≠ (byteOfWord j k).val := by
    intro k e
    apply h
    simp only [byteOfWord] at e
    omega
  simp only [State.writeWord_B]
  rw [Memory.read_write_other _ _ _ (hb 3), Memory.read_write_other _ _ _ (hb 2),
    Memory.read_write_other _ _ _ (hb 1), Memory.read_write_other _ _ _ (hb 0)]

theorem byteOfWord_ne (j : Fin 16) {k l : Fin 4} (h : k ≠ l) : (byteOfWord j k) ≠ (byteOfWord j l) := by
  intro e
  apply h
  have := congrArg Fin.val e
  simp only [byteOfWord] at this
  exact Fin.ext (by omega)

/-- After WRW the four bytes of the word are those of the value, the most significant at the lowest address. -/
theorem State.readByte_writeWord (s : State) (j : Fin 16) (v : Word) (h : s.B.wf = true) :
    (s.writeWord j v).readByte (byteOfWord j 0) = v.extractLsb' 24 8 ∧
    (s.writeWord j v).readByte (byteOfWord j 1) = v.extractLsb' 16 8 ∧
    (s.writeWord j v).readByte (byteOfWord j 2) = v.extractLsb' 8 8 ∧
    (s.writeWord j v).readByte (byteOfWord j 3) = v.extractLsb' 0 8 := by
  have h0 := State.wf_writeByte s (byteOfWord j 0) (v.extractLsb' 24 8) h
  have h1 := State.wf_writeByte _ (byteOfWord j 1) (v.extractLsb' 16 8) h0
  have h2 := State.wf_writeByte _ (byteOfWord j 2) (v.extractLsb' 8 8) h1
  unfold State.writeWord
  refine ⟨?_, ?_, ?_, ?_⟩
  · rw [State.readByte_writeByte_other _ _ _ (byteOfWord_ne j (by decide)),
      State.readByte_writeByte_other _ _ _ (byteOfWord_ne j (by decide)),
      State.readByte_writeByte_other _ _ _ (byteOfWord_ne j (by decide)), State.readByte_writeByte_same _ _ _ h]
  · rw [State.readByte_writeByte_other _ _ _ (byteOfWord_ne j (by decide)),
      State.readByte_writeByte_other _ _ _ (byteOfWord_ne j (by decide)), State.readByte_writeByte_same _ _ _ h0]
  · rw [State.readByte_writeByte_other _ _ _ (byteOfWord_ne j (by decide)), State.readByte_writeByte_same _ _ _ h1]
  · rw [State.readByte_writeByte_same _ _ _ h2]

/-- The byte assembler undoes the cut of a word into bytes (R41, R43). -/
theorem be32_extract (v : Word) :
    be32 (v.extractLsb' 24 8) (v.extractLsb' 16 8) (v.extractLsb' 8 8) (v.extractLsb' 0 8) = v := by
  apply BitVec.eq_of_getLsbD_eq
  intro i hi
  unfold be32
  simp only [BitVec.getLsbD_or, BitVec.getLsbD_shiftLeft, BitVec.getLsbD_setWidth, BitVec.getLsbD_extractLsb']
  by_cases h1 : i < 8
  · simp [h1, hi, show i < 24 by omega, show i < 16 by omega]
  · by_cases h2 : i < 16
    · simp [h1, h2, hi, show i < 24 by omega, show i - 8 < 8 by omega, show 8 + (i - 8) = i by omega, show i - 8 < 32 by omega]
    · by_cases h3 : i < 24
      · simp [h1, h2, h3, hi, show i - 16 < 8 by omega, show ¬ (i - 8 < 8) by omega, show 16 + (i - 16) = i by omega, show i - 16 < 32 by omega]
      · simp [h1, h2, h3, hi, show i - 24 < 8 by omega, show ¬ (i - 8 < 8) by omega, show ¬ (i - 16 < 8) by omega,
          show 24 + (i - 24) = i by omega, show i - 24 < 32 by omega]

end Sys2Proof.Machine
end

