-- ==== Sys2Proof/Laws/Operands.lean ====
section
/-! SUPPORT. What each operand check answers, in the numbers of the fields. -/

namespace Sys2Proof.Machine

theorem noOperands_iff (idx : BitVec 8) (data : Word) : noOperands idx data = true ↔ idx = 0 ∧ data = 0 := by
  simp [noOperands]

theorem stateIndex_eq_some {idx : BitVec 8} {i : Fin 5} : stateIndex idx = some i ↔ idx.toNat = i.val := by
  unfold stateIndex
  constructor
  · intro h; split at h
    · cases h; rfl
    · cases h
  · intro h
    rw [dif_pos (by omega)]
    exact congrArg some (Fin.ext h)

theorem stateIndex_eq_none {idx : BitVec 8} : stateIndex idx = none ↔ 5 ≤ idx.toNat := by
  unfold stateIndex; split <;> simp <;> omega

theorem byteIndex_eq_some {idx : BitVec 8} {n : Fin 64} : byteIndex idx = some n ↔ idx.toNat = n.val := by
  unfold byteIndex
  constructor
  · intro h; split at h
    · cases h; rfl
    · cases h
  · intro h
    rw [dif_pos (by omega)]
    exact congrArg some (Fin.ext h)

theorem byteIndex_eq_none {idx : BitVec 8} : byteIndex idx = none ↔ 64 ≤ idx.toNat := by
  unfold byteIndex; split <;> simp <;> omega

theorem wordIndex_eq_some {idx : BitVec 8} {j : Fin 16} : wordIndex idx = some j ↔ idx.toNat = j.val := by
  unfold wordIndex
  constructor
  · intro h; split at h
    · cases h; rfl
    · cases h
  · intro h
    rw [dif_pos (by omega)]
    exact congrArg some (Fin.ext h)

theorem wordIndex_eq_none {idx : BitVec 8} : wordIndex idx = none ↔ 16 ≤ idx.toNat := by
  unfold wordIndex; split <;> simp <;> omega

theorem readIndex_eq_some {idx : BitVec 8} {data : Word} {i : Fin 5} :
    readIndex idx data = some i ↔ idx.toNat = i.val ∧ data = 0 := by
  unfold readIndex; split
  · rename_i h; simp [h, stateIndex_eq_some]
  · rename_i h; simp only [reduceCtorEq, false_iff, not_and]; intro _ e; exact h e

theorem readIndex_eq_none {idx : BitVec 8} {data : Word} :
    readIndex idx data = none ↔ 5 ≤ idx.toNat ∨ data ≠ 0 := by
  unfold readIndex; split
  · rename_i h; simp [h, stateIndex_eq_none]
  · rename_i h; simp only [true_iff]; exact Or.inr h

theorem byteOperands_eq_some {idx : BitVec 8} {data : Word} {n : Fin 64} {v : Byte} :
    byteOperands idx data = some (n, v) ↔ idx.toNat = n.val ∧ data.toNat ≤ 0xFF ∧ v = data.setWidth 8 := by
  unfold byteOperands
  cases h : byteIndex idx with
  | none =>
    rw [byteIndex_eq_none] at h
    simp only [reduceCtorEq, false_iff, not_and]; intro e; omega
  | some m =>
    rw [byteIndex_eq_some] at h
    by_cases hd : data.toNat ≤ 0xFF
    · show (if data.toNat ≤ 0xFF then some (m, data.setWidth 8) else none) = some (n, v) ↔ _
      rw [if_pos hd, Option.some.injEq, Prod.mk.injEq, Fin.ext_iff]
      constructor
      · rintro ⟨e, rfl⟩; exact ⟨by omega, hd, rfl⟩
      · rintro ⟨e, _, rfl⟩; exact ⟨by omega, rfl⟩
    · simp only [if_neg hd, reduceCtorEq, false_iff, not_and]; intro _ e; exact absurd e hd

theorem byteOperands_eq_none {idx : BitVec 8} {data : Word} :
    byteOperands idx data = none ↔ 64 ≤ idx.toNat ∨ 0xFF < data.toNat := by
  unfold byteOperands
  cases h : byteIndex idx with
  | none => rw [byteIndex_eq_none] at h; simp [h]
  | some m =>
    rw [byteIndex_eq_some] at h
    have := m.isLt
    by_cases hd : data.toNat ≤ 0xFF <;> simp [hd] <;> omega

theorem schedIndex_eq_some {t : BitVec 7} {n : Fin 80} : schedIndex t = some n ↔ t.toNat = n.val ∧ 16 ≤ n.val := by
  unfold schedIndex
  by_cases h : t.toNat < 80
  · rw [dif_pos h]
    by_cases h16 : 16 ≤ t.toNat
    · rw [if_pos h16]
      simp only [Option.some.injEq, Fin.ext_iff]; omega
    · rw [if_neg h16]
      simp only [reduceCtorEq, false_iff]; omega
  · rw [dif_neg h]
    have := n.isLt
    simp only [reduceCtorEq, false_iff]; omega

theorem schedIndex_eq_none {t : BitVec 7} : schedIndex t = none ↔ t.toNat < 16 ∨ 80 ≤ t.toNat := by
  unfold schedIndex
  by_cases h : t.toNat < 80
  · by_cases h16 : 16 ≤ t.toNat <;> simp [h, h16]; omega
  · simp [h]; omega

theorem roundIndex_eq_some {g : Fin 4} {t : BitVec 7} {n : Fin 80} :
    roundIndex g t = some n ↔ t.toNat = n.val ∧ n.val / 20 = g.val := by
  unfold roundIndex
  by_cases h : t.toNat < 80
  · rw [dif_pos h]
    by_cases hg : group ⟨t.toNat, h⟩ = g
    · rw [if_pos hg]
      have := congrArg Fin.val hg
      simp only [group] at this
      simp only [Option.some.injEq, Fin.ext_iff]; omega
    · rw [if_neg hg]
      simp only [group, Fin.ext_iff] at hg
      simp only [reduceCtorEq, false_iff]; omega
  · rw [dif_neg h]
    have := n.isLt
    simp only [reduceCtorEq, false_iff]; omega

end Sys2Proof.Machine
end

