-- ==== Sys2Proof/Laws/PerInstr.lean ====
section
/-! SUPPORT. Statements made per instruction (LAWS.json): the word of every well-formed operation matches its row of the
opcode table, by the row's mask, match value and range of t (30_encoding R72). -/

namespace Sys2Proof

/-- A row's mask that keeps only bits of `op` keeps exactly those. -/
theorem cmd_mask (op m : BitVec 4) (idx : BitVec 8) (data : Word) :
    ((op ++ idx ++ data : CmdWord) &&& (m ++ (0 : BitVec 8) ++ (0 : Word))) = (op &&& m) ++ (0 : BitVec 8) ++ (0 : Word) := by
  apply BitVec.eq_of_getLsbD_eq
  intro i hi
  simp only [BitVec.getLsbD_and, BitVec.getLsbD_append]
  by_cases h1 : i < 32
  · simp [h1]
  · by_cases h2 : i - 32 < 8
    · simp [h1, h2]
    · simp [h1, h2]

/-- The mask of the SEQ10 rows keeps the phase. -/
theorem seq_mask (p : BitVec 3) (t : BitVec 7) : ((p ++ t : SeqWord) &&& 0x380#10) = p ++ (0 : BitVec 7) := by
  rw [show (0x380#10 : SeqWord) = (7#3 ++ 0#7 : SeqWord) from by decide]
  apply BitVec.eq_of_getLsbD_eq
  intro i hi
  simp only [BitVec.getLsbD_and, BitVec.getLsbD_append]
  by_cases h1 : i < 7
  · simp [h1]
  · have h7 : ∀ k, k < 3 → (7#3).getLsbD k = true := by decide
    simp [h1, h7 (i - 7) (by omega)]

theorem covers_cmd (op m v : BitVec 4) (idx : BitVec 8) (data : Word) (name : String) (mask value : CmdWord)
    (hm : mask = m ++ (0 : BitVec 8) ++ (0 : Word)) (hv : value = v ++ (0 : BitVec 8) ++ (0 : Word))
    (h : op &&& m = v) : (Row.cmd name mask value).covers (encodeCmd op idx data) = true := by
  simp only [Row.covers, encodeCmd, decide_eq_true_eq]
  rw [hm, hv, cmd_mask, h]

theorem covers_seq (p : BitVec 3) (t : BitVec 7) (name : String) (value : SeqWord) (lo hi : Nat)
    (hv : value = p ++ (0 : BitVec 7)) (h : tInRange lo hi t = true) :
    (Row.seq name 0x380 value lo hi).covers (encodeSeq p t) = true := by
  simp only [Row.covers, encodeSeq, Bool.and_eq_true, decide_eq_true_eq]
  exact ⟨by rw [hv]; exact seq_mask p t, by rw [seqT_append]; exact h⟩

/-- The operation's word matches its row, and the row is one of the table's. -/
def Laws.MatchesRow.Statement (i : Instr) : Prop :=
  i.WellFormed → (rowOf i).covers (encode i) = true ∧ rowOf i ∈ opcodeTable

theorem Laws.MatchesRow.nop (idx : BitVec 8) (data : Word) : Statement (.nop idx data) := fun _ =>
  ⟨covers_cmd 0 0xF 0 idx data _ _ _ (by decide) (by decide) (by decide), by simp [opcodeTable, rowOf]⟩

theorem Laws.MatchesRow.wrh (idx : BitVec 8) (data : Word) : Statement (.wrh idx data) := fun _ =>
  ⟨covers_cmd 1 0xF 1 idx data _ _ _ (by decide) (by decide) (by decide), by simp [opcodeTable, rowOf]⟩

theorem Laws.MatchesRow.rdh (idx : BitVec 8) (data : Word) : Statement (.rdh idx data) := fun _ =>
  ⟨covers_cmd 2 0xF 2 idx data _ _ _ (by decide) (by decide) (by decide), by simp [opcodeTable, rowOf]⟩

theorem Laws.MatchesRow.wrb (idx : BitVec 8) (data : Word) : Statement (.wrb idx data) := fun _ =>
  ⟨covers_cmd 3 0xF 3 idx data _ _ _ (by decide) (by decide) (by decide), by simp [opcodeTable, rowOf]⟩

theorem Laws.MatchesRow.wrw (idx : BitVec 8) (data : Word) : Statement (.wrw idx data) := fun _ =>
  ⟨covers_cmd 4 0xF 4 idx data _ _ _ (by decide) (by decide) (by decide), by simp [opcodeTable, rowOf]⟩

theorem Laws.MatchesRow.start (idx : BitVec 8) (data : Word) : Statement (.start idx data) := fun _ =>
  ⟨covers_cmd 5 0xF 5 idx data _ _ _ (by decide) (by decide) (by decide), by simp [opcodeTable, rowOf]⟩

theorem Laws.MatchesRow.rsvd67 (op : BitVec 4) (idx : BitVec 8) (data : Word) : Statement (.rsvd67 op idx data) := by
  intro h
  have key : ∀ o : BitVec 4, (decide (o = 6) || decide (o = 7)) = true → o &&& 0xE = 6 := by decide
  exact ⟨covers_cmd op 0xE 6 idx data _ _ _ (by decide) (by decide) (key op h), by simp [opcodeTable, rowOf]⟩

theorem Laws.MatchesRow.rsvd8F (op : BitVec 4) (idx : BitVec 8) (data : Word) : Statement (.rsvd8F op idx data) := by
  intro h
  have key : ∀ o : BitVec 4, decide (8 ≤ o.toNat) = true → o &&& 0x8 = 8 := by decide
  exact ⟨covers_cmd op 0x8 8 idx data _ _ _ (by decide) (by decide) (key op h), by simp [opcodeTable, rowOf]⟩

theorem Laws.MatchesRow.parse : Statement .parse := fun _ =>
  ⟨covers_seq 1 0 _ _ 0 0 (by decide) (by decide), by simp [opcodeTable, rowOf]⟩

theorem Laws.MatchesRow.sched (t : BitVec 7) : Statement (.sched t) := fun h =>
  ⟨covers_seq 2 t _ _ 16 79 (by decide) h, by simp [opcodeTable, rowOf]⟩

theorem Laws.MatchesRow.seed : Statement .seed := fun _ =>
  ⟨covers_seq 3 0 _ _ 0 0 (by decide) (by decide), by simp [opcodeTable, rowOf]⟩

theorem Laws.MatchesRow.roundCh (t : BitVec 7) : Statement (.roundCh t) := fun h =>
  ⟨covers_seq 4 t _ _ 0 19 (by decide) h, by simp [opcodeTable, rowOf]⟩

theorem Laws.MatchesRow.roundPar1 (t : BitVec 7) : Statement (.roundPar1 t) := fun h =>
  ⟨covers_seq 4 t _ _ 20 39 (by decide) h, by simp [opcodeTable, rowOf]⟩

theorem Laws.MatchesRow.roundMaj (t : BitVec 7) : Statement (.roundMaj t) := fun h =>
  ⟨covers_seq 4 t _ _ 40 59 (by decide) h, by simp [opcodeTable, rowOf]⟩

theorem Laws.MatchesRow.roundPar3 (t : BitVec 7) : Statement (.roundPar3 t) := fun h =>
  ⟨covers_seq 4 t _ _ 60 79 (by decide) h, by simp [opcodeTable, rowOf]⟩

theorem Laws.MatchesRow.fold : Statement .fold := fun _ =>
  ⟨covers_seq 5 0 _ _ 0 0 (by decide) (by decide), by simp [opcodeTable, rowOf]⟩

end Sys2Proof
end

