-- ==== Sys2Proof/Laws/Step.lean ====
section
/-! SUPPORT. What a step can do, said once: forward (which step a state takes) and backward (`step_cases`). -/

namespace Sys2Proof.Machine

@[simp] theorem raiseFault_eq (c : Cause) (s : State) : raiseFault c s = .next (s.faulted c) := rfl

@[simp] theorem done_eq (s : State) (r : Word) : done s r = .next (s.answered r) := rfl

theorem State.takeCommand_eq {s : State} {w : CmdWord} {rest : List CmdWord} (h : s.host = w :: rest) :
    s.takeCommand = { s with host := rest } := by
  simp [State.takeCommand, h]

/-- The two fields of a response are read back from it (30 R63). -/
theorem response_inj {c d : BitVec 3} {r q : Word} (h : (c ++ r : RspWord) = d ++ q) : c = d ∧ r = q := by
  have e : ∀ (c : BitVec 3) (r : Word),
      (c ++ r : RspWord).extractLsb' 32 3 = c ∧ (c ++ r : RspWord).extractLsb' 0 32 = r := by
    intro c r
    constructor
    · apply BitVec.eq_of_getLsbD_eq
      intro i hi
      simp only [BitVec.getLsbD_extractLsb', BitVec.getLsbD_append]
      simp [hi, show ¬ 32 + i < 32 by omega]
    · apply BitVec.eq_of_getLsbD_eq
      intro i hi
      simp only [BitVec.getLsbD_extractLsb', BitVec.getLsbD_append]
      simp [hi]
  exact ⟨by rw [← (e c r).1, h, (e d q).1], by rw [← (e c r).2, h, (e d q).2]⟩

theorem State.select_eq (s : State) : s.select =
    match decodeSeqFields s.phase.code s.t with
    | .ok i => .micro i
    | .error .noMicroOp => .nothing
    | .error .idle => match s.host with | [] => .waiting | w :: _ => .command w := by
  have e : decodeSeq s.seqWord = decodeSeqFields s.phase.code s.t := decodeSeq_append _ _
  unfold State.select
  generalize decodeSeqFields s.phase.code s.t = d at e ⊢
  cases d with
  | ok i => simp only [e]
  | error x =>
    cases x with
    | noMicroOp => simp only [e]
    | idle => cases s.host <;> simp only [e]

/-- PARSE's schedule: words 0 to 15 are the block's. -/
theorem State.parsedW_low (s : State) (k : Fin 80) (h : k.val < 16) : s.parsedW[k] = s.readWord ⟨k.val, h⟩ := by
  simp only [State.parsedW, Fin.getElem_fin, Vector.getElem_ofFn, dif_pos h]

/-- PARSE's schedule: words 16 to 79 are not written. -/
theorem State.parsedW_high (s : State) (k : Fin 80) (h : 16 ≤ k.val) : s.parsedW[k] = s.W[k] := by
  simp only [State.parsedW, Fin.getElem_fin, Vector.getElem_ofFn, dif_neg (show ¬ k.val < 16 by omega)]

/-- `w` is the schedule PARSE leaves. Proofs keep it a variable: unifying with `parsedW` itself evaluates it. -/
structure State.Parsed (s : State) (w : Vector Word 80) : Prop where
  low : ∀ (k : Fin 80) (h : k.val < 16), w[k] = s.readWord ⟨k.val, h⟩
  high : ∀ k : Fin 80, 16 ≤ k.val → w[k] = s.W[k]

theorem State.parsedW_parsed (s : State) : s.Parsed s.parsedW := ⟨s.parsedW_low, s.parsedW_high⟩

/-- The idle engine accepts the command that is presented. -/
theorem step_command {s : State} {w : CmdWord} {rest : List CmdWord} (hp : s.phase = .idle) (ht : s.t = 0)
    (hh : s.host = w :: rest) : step s = exec (decodeCmd w) { s with host := rest } := by
  have : s.select = .command w := by simp [State.select_eq, hp, ht, hh, Phase.code, decodeSeqFields]
  rw [step, this, State.takeCommand_eq hh]

/-- The idle engine with no command presented keeps its state. -/
theorem step_waiting {s : State} (hp : s.phase = .idle) (ht : s.t = 0) (hh : s.host = []) : step s = .next s := by
  have : s.select = .waiting := by simp [State.select_eq, hp, ht, hh, Phase.code, decodeSeqFields]
  rw [step, this]

/-- The busy engine performs the micro-operation `SEQ` selects. -/
theorem step_micro {s : State} {i : Instr} (h : decodeSeqFields s.phase.code s.t = .ok i) : step s = exec i s := by
  have : s.select = .micro i := by rw [State.select_eq, h]
  rw [step, this]

theorem step_parse {s : State} (hp : s.phase = .parse) (ht : s.t = 0) :
    ∃ w, s.Parsed w ∧ step s = .next (((s.setW w).clearBV).enter .sched 16) :=
  ⟨s.parsedW, s.parsedW_parsed, step_micro (i := .parse) (by simp [hp, ht, Phase.code, decodeSeqFields])⟩

theorem step_sched {s : State} (hp : s.phase = .sched) (n : Fin 80) (hn : 16 ≤ n.val) (ht : s.t.toNat = n.val) :
    step s = .next ((s.setW (s.W.set n.val (scheduleWord s.W n))).advance n .sched .seed) := by
  have hr : tInRange 16 79 s.t = true := tInRange_iff.2 ⟨by omega, by omega⟩
  rw [step_micro (i := .sched s.t) (by simp [hp, Phase.code, decodeSeqFields, hr])]
  simp only [exec, execSched, schedIndex_eq_some.2 ⟨ht, hn⟩]

theorem step_seed {s : State} (hp : s.phase = .seed) (ht : s.t = 0) :
    step s = .next ((s.setRegs s.H[0] s.H[1] s.H[2] s.H[3] s.H[4]).enter .round 0) :=
  step_micro (i := .seed) (by simp [hp, ht, Phase.code, decodeSeqFields])

theorem roundAt_eq {g : Fin 4} {t : BitVec 7} {n : Fin 80} (ht : t.toNat = n.val) (hg : n.val / 20 = g.val) (s : State) :
    roundAt g t s = .next (s.roundStep g n) := by
  simp only [roundAt, roundIndex_eq_some.2 ⟨ht, hg⟩]

theorem step_round {s : State} (hp : s.phase = .round) (n : Fin 80) (ht : s.t.toNat = n.val) :
    step s = .next (s.roundStep (group n) n) := by
  have hn := n.isLt
  have key : ∀ g : Fin 4, n.val / 20 = g.val → roundAt g s.t s = .next (s.roundStep (group n) n) := by
    intro g hg
    rw [roundAt_eq ht hg, show group n = g from Fin.ext hg]
  have q : ∀ lo hi, tInRange lo hi s.t = true ↔ lo ≤ n.val ∧ n.val ≤ hi := by
    intro lo hi; rw [tInRange_iff, ht]
  by_cases h0 : n.val ≤ 19
  · rw [step_micro (i := .roundCh s.t) (by simp [hp, Phase.code, decodeSeqFields, (q 0 19).2 ⟨by omega, h0⟩])]
    exact key 0 (by show n.val / 20 = 0; omega)
  have f0 : tInRange 0 19 s.t = false := by rw [Bool.eq_false_iff, Ne, q]; omega
  by_cases h1 : n.val ≤ 39
  · rw [step_micro (i := .roundPar1 s.t)
      (by simp [hp, Phase.code, decodeSeqFields, f0, (q 20 39).2 ⟨by omega, h1⟩])]
    exact key 1 (by show n.val / 20 = 1; omega)
  have f1 : tInRange 20 39 s.t = false := by rw [Bool.eq_false_iff, Ne, q]; omega
  by_cases h2 : n.val ≤ 59
  · rw [step_micro (i := .roundMaj s.t)
      (by simp [hp, Phase.code, decodeSeqFields, f0, f1, (q 40 59).2 ⟨by omega, h2⟩])]
    exact key 2 (by show n.val / 20 = 2; omega)
  have f2 : tInRange 40 59 s.t = false := by rw [Bool.eq_false_iff, Ne, q]; omega
  rw [step_micro (i := .roundPar3 s.t)
    (by simp [hp, Phase.code, decodeSeqFields, f0, f1, f2, (q 60 79).2 ⟨by omega, by omega⟩])]
  exact key 3 (by show n.val / 20 = 3; omega)

theorem step_fold {s : State} (hp : s.phase = .fold) (ht : s.t = 0) :
    step s = .next ((s.setH s.foldedH).enter .idle 0) :=
  step_micro (i := .fold) (by simp [hp, ht, Phase.code, decodeSeqFields])

/-- What an accepted command can do: fault, or be one of the six commands performed. -/
theorem command_cases (w : CmdWord) (s : State) :
    (∃ c, c ≠ .noFault ∧ exec (decodeCmd w) s = .next (s.faulted c)) ∨
    (decodeCmd w = .nop 0 0 ∧ exec (decodeCmd w) s = .next (s.answered 0)) ∨
    (∃ idx v, ∃ i : Fin 5, decodeCmd w = .wrh idx v ∧ idx.toNat = i.val ∧
      exec (decodeCmd w) s = .next ((s.writeH i v).answered 0)) ∨
    (∃ idx, ∃ i : Fin 5, decodeCmd w = .rdh idx 0 ∧ idx.toNat = i.val ∧ s.validH i = true ∧
      exec (decodeCmd w) s = .next (s.answered (s.readH i))) ∨
    (∃ idx data, ∃ n : Fin 64, decodeCmd w = .wrb idx data ∧ idx.toNat = n.val ∧ data.toNat ≤ 0xFF ∧
      exec (decodeCmd w) s = .next ((s.writeByte n (data.setWidth 8)).answered 0)) ∨
    (∃ idx v, ∃ j : Fin 16, decodeCmd w = .wrw idx v ∧ idx.toNat = j.val ∧
      exec (decodeCmd w) s = .next ((s.writeWord j v).answered 0)) ∨
    (decodeCmd w = .start 0 0 ∧ s.HV = fullHV ∧ s.BV = fullBV ∧
      exec (decodeCmd w) s = .next ((s.enter .parse 0).answered 0)) := by
  unfold decodeCmd
  split
  · by_cases h : noOperands (cmdIdx w) (cmdData w) = true
    · obtain ⟨h1, h2⟩ := (noOperands_iff _ _).1 h
      rw [h1, h2]
      exact Or.inr (Or.inl ⟨rfl, rfl⟩)
    · exact Or.inl ⟨.badOperand, by decide, by simp [exec, execNop, h]⟩
  · split
    · cases h : stateIndex (cmdIdx w) with
      | none => exact Or.inl ⟨.badOperand, by decide, by simp [exec, execWrh, h]⟩
      | some i =>
        exact Or.inr (Or.inr (Or.inl ⟨_, _, i, rfl, stateIndex_eq_some.1 h, by simp [exec, execWrh, h]⟩))
    · split
      · cases h : readIndex (cmdIdx w) (cmdData w) with
        | none => exact Or.inl ⟨.badOperand, by decide, by simp [exec, execRdh, h]⟩
        | some i =>
          obtain ⟨h1, h2⟩ := readIndex_eq_some.1 h
          by_cases hv : s.validH i = true
          · refine Or.inr (Or.inr (Or.inr (Or.inl ⟨cmdIdx w, i, by rw [h2], h1, hv, ?_⟩)))
            simp [exec, execRdh, h, hv]
          · exact Or.inl ⟨.stateUninit, by decide, by simp [exec, execRdh, h, hv]⟩
      · split
        · cases h : byteOperands (cmdIdx w) (cmdData w) with
          | none => exact Or.inl ⟨.badOperand, by decide, by simp [exec, execWrb, h]⟩
          | some p =>
            obtain ⟨n, v⟩ := p
            obtain ⟨h1, h2, rfl⟩ := byteOperands_eq_some.1 h
            exact Or.inr (Or.inr (Or.inr (Or.inr (Or.inl
              ⟨_, _, n, rfl, h1, h2, by simp [exec, execWrb, h]⟩))))
        · split
          · cases h : wordIndex (cmdIdx w) with
            | none => exact Or.inl ⟨.badOperand, by decide, by simp [exec, execWrw, h]⟩
            | some j =>
              exact Or.inr (Or.inr (Or.inr (Or.inr (Or.inr (Or.inl
                ⟨_, _, j, rfl, wordIndex_eq_some.1 h, by simp [exec, execWrw, h]⟩)))))
          · split
            · by_cases h : noOperands (cmdIdx w) (cmdData w) = true
              · obtain ⟨h1, h2⟩ := (noOperands_iff _ _).1 h
                by_cases hh : s.HV = fullHV
                · by_cases hb : s.BV = fullBV
                  · refine Or.inr (Or.inr (Or.inr (Or.inr (Or.inr (Or.inr ⟨by rw [h1, h2], hh, hb, ?_⟩)))))
                    simp [exec, execStart, h, State.allValidH, State.allValidB, hh, hb]
                  · exact Or.inl ⟨.blockIncomplete, by decide,
                      by simp [exec, execStart, h, State.allValidH, State.allValidB, hh, hb]⟩
                · exact Or.inl ⟨.stateUninit, by decide, by simp [exec, execStart, h, State.allValidH, hh]⟩
              · exact Or.inl ⟨.badOperand, by decide, by simp [exec, execStart, h]⟩
            · split
              · exact Or.inl ⟨.illegalOp, by decide, by simp [exec, execRsvd67]⟩
              · exact Or.inl ⟨.illegalOp, by decide, by simp [exec, execRsvd8F]⟩

/-- Everything a step that answers a next state can have done. -/
theorem step_cases {s u : State} (h : step s = .next u) :
    (s.phase = .idle ∧ s.t = 0 ∧ s.host = [] ∧ u = s) ∨
    (∃ w rest, s.phase = .idle ∧ s.t = 0 ∧ s.host = w :: rest ∧
      exec (decodeCmd w) { s with host := rest } = .next u) ∨
    (∃ w, s.phase = .parse ∧ s.t = 0 ∧ s.Parsed w ∧ u = ((s.setW w).clearBV).enter .sched 16) ∨
    (∃ n : Fin 80, s.phase = .sched ∧ s.t.toNat = n.val ∧ 16 ≤ n.val ∧
      u = (s.setW (s.W.set n.val (scheduleWord s.W n))).advance n .sched .seed) ∨
    (s.phase = .seed ∧ s.t = 0 ∧ u = (s.setRegs s.H[0] s.H[1] s.H[2] s.H[3] s.H[4]).enter .round 0) ∨
    (∃ n : Fin 80, s.phase = .round ∧ s.t.toNat = n.val ∧ u = s.roundStep (group n) n) ∨
    (s.phase = .fold ∧ s.t = 0 ∧ u = (s.setH s.foldedH).enter .idle 0) := by
  have stuck : decodeSeqFields s.phase.code s.t = .error .noMicroOp → False := by
    intro hd
    have : s.select = .nothing := by rw [State.select_eq, hd]
    rw [step, this] at h
    cases h
  cases hp : s.phase with
  | idle =>
    by_cases ht : s.t = 0
    · cases hh : s.host with
      | nil =>
        rw [step_waiting hp ht hh] at h
        cases h
        exact Or.inl ⟨rfl, ht, rfl, rfl⟩
      | cons w rest =>
        rw [step_command hp ht hh] at h
        exact Or.inr (Or.inl ⟨w, rest, rfl, ht, rfl, by rw [← hp]; exact h⟩)
    · exact (stuck (by simp [hp, show ¬ s.t = 0#7 from ht, Phase.code, decodeSeqFields])).elim
  | parse =>
    by_cases ht : s.t = 0
    · obtain ⟨w, hw, hs⟩ := step_parse hp ht
      rw [hs] at h
      cases h
      exact Or.inr (Or.inr (Or.inl ⟨w, rfl, ht, hw, rfl⟩))
    · exact (stuck (by simp [hp, show ¬ s.t = 0#7 from ht, Phase.code, decodeSeqFields])).elim
  | sched =>
    by_cases ht : tInRange 16 79 s.t = true
    · obtain ⟨h1, h2⟩ := tInRange_iff.1 ht
      rw [step_sched hp ⟨s.t.toNat, by omega⟩ h1 rfl] at h
      cases h
      exact Or.inr (Or.inr (Or.inr (Or.inl ⟨⟨s.t.toNat, by omega⟩, rfl, rfl, h1, rfl⟩)))
    · exact (stuck (by simp [hp, ht, Phase.code, decodeSeqFields])).elim
  | seed =>
    by_cases ht : s.t = 0
    · rw [step_seed hp ht] at h
      cases h
      exact Or.inr (Or.inr (Or.inr (Or.inr (Or.inl ⟨rfl, ht, rfl⟩))))
    · exact (stuck (by simp [hp, show ¬ s.t = 0#7 from ht, Phase.code, decodeSeqFields])).elim
  | round =>
    by_cases ht : s.t.toNat < 80
    · rw [step_round hp ⟨s.t.toNat, ht⟩ rfl] at h
      cases h
      exact Or.inr (Or.inr (Or.inr (Or.inr (Or.inr (Or.inl ⟨⟨s.t.toNat, ht⟩, rfl, rfl, rfl⟩)))))
    · have q : ∀ lo hi, hi < 80 → tInRange lo hi s.t = false := by
        intro lo hi hlt; rw [Bool.eq_false_iff, Ne, tInRange_iff]; omega
      exact (stuck (by simp [hp, Phase.code, decodeSeqFields, q])).elim
  | fold =>
    by_cases ht : s.t = 0
    · rw [step_fold hp ht] at h
      cases h
      exact Or.inr (Or.inr (Or.inr (Or.inr (Or.inr (Or.inr ⟨rfl, ht, rfl⟩)))))
    · exact (stuck (by simp [hp, show ¬ s.t = 0#7 from ht, Phase.code, decodeSeqFields])).elim

end Sys2Proof.Machine
end

