-- ==== Sys2Proof/Laws/Run.lean ====
section
/-! SUPPORT. Runs of several steps, and the two loops of a block against the reference function (43_driver R130). -/

namespace Sys2Proof.Machine

theorem State.advance_eq (s : State) (k : Fin 80) (stay leave : Phase) : s.advance k stay leave =
    { s with phase := if k.val = 79 then leave else stay,
             t := if k.val = 79 then 0 else BitVec.ofNat 7 (k.val + 1) } := by
  unfold State.advance
  split <;> rfl

/-- The advanced index is `t + 1`. -/
theorem ofNat_succ_eq {t : BitVec 7} {k : Fin 80} (h : t.toNat = k.val) : BitVec.ofNat 7 (k.val + 1) = t + 1 := by
  have := k.isLt
  exact BitVec.eq_of_toNat_eq (by simp [h])

theorem stepN_one {s u : State} (h : step s = .next u) : stepN 1 s = .next u := by simp [stepN, h]

/-- A run of `n + m` steps is a run of `n` and then one of `m`. -/
theorem stepN_add {n m : Nat} : ∀ {s u v : State}, stepN n s = .next u → stepN m u = .next v →
    stepN (n + m) s = .next v := by
  induction n with
  | zero =>
    intro s u v h h'
    cases h
    simpa using h'
  | succ n ih =>
    intro s u v h h'
    rw [Nat.succ_add, stepN]
    rw [stepN] at h
    cases hs : step s with
    | next x => rw [hs] at h; exact ih h h'
    | fault f => rw [hs] at h; cases h
    | refused r => rw [hs] at h; cases h

theorem stepN_succ {n : Nat} {s u v : State} (h : stepN n s = .next u) (h' : step u = .next v) :
    stepN (n + 1) s = .next v :=
  stepN_add h (stepN_one h')

/-- After `m` SCHED steps the first `16 + m` schedule words are those of the reference function. -/
theorem sched_run (s : State) (hp : s.phase = .sched) (ht : s.t = 16) (x : Vector Byte 64)
    (hx : s.W.toList.take 16 = parseBlock x) (m : Nat) (hm : m ≤ 64) :
    ∃ w : Vector Word 80, w.toList.take (16 + m) = (List.range' 16 m).foldl expandOne (parseBlock x) ∧
      stepN m s = .next { s with W := w, phase := if m = 64 then .seed else .sched,
                                 t := if m = 64 then 0 else BitVec.ofNat 7 (16 + m) } := by
  induction m with
  | zero => exact ⟨s.W, by simpa using hx, by cases s; simp_all [stepN]⟩
  | succ m ih =>
    obtain ⟨w, hw, hs⟩ := ih (by omega)
    have hm' : ¬ m = 64 := by omega
    refine ⟨w.set (16 + m) (scheduleWord w ⟨16 + m, by omega⟩), ?_, ?_⟩
    · rw [List.range'_1_concat, List.foldl_append, ← hw]
      simp only [List.foldl_cons, List.foldl_nil, expandOne]
      have hl : ∀ n, n ≤ 16 → 0 < n → (List.take (16 + m) w.toList).getD (16 + m - n) 0 = w[16 + m - n]'(by omega) := by
        intro n hn hn0
        rw [List.getD_eq_getElem?_getD, List.getElem?_take_of_lt (by omega)]
        have : 16 + m - n < 80 := by omega
        simp [this]
      rw [hl 3 (by omega) (by omega), hl 8 (by omega) (by omega), hl 14 (by omega) (by omega),
        hl 16 (by omega) (by omega), show 16 + (m + 1) = (16 + m) + 1 from rfl, List.take_add_one]
      simp only [Vector.toList_set]
      rw [List.getElem?_set_self (by simp; omega)]
      simp [List.take_set_of_le, scheduleWord, tap]
    · refine stepN_succ hs ?_
      rw [step_sched (n := ⟨16 + m, by omega⟩) (by simp [hm']) (by simp) (by simp [hm']; omega)]
      simp only [State.advance_eq, State.setW]
      by_cases e : m = 63
      · simp [e]
      · simp [show ¬ m + 1 = 64 by omega, show ¬ 16 + m = 79 by omega]
        rfl

/-- After `m` ROUND steps the working registers are those of the reference function. -/
theorem round_run (s : State) (hp : s.phase = .round) (ht : s.t = 0) (m : Nat) (hm : m ≤ 80) :
    let r := (List.range m).foldl (refRound s.W.toList) ⟨s.a, s.b, s.c, s.d, s.e⟩
    stepN m s = .next { s with a := r.a, b := r.b, c := r.c, d := r.d, e := r.e,
                               phase := if m = 80 then .fold else .round,
                               t := if m = 80 then 0 else BitVec.ofNat 7 m } := by
  induction m with
  | zero => cases s; simp_all [stepN]
  | succ m ih =>
    have hs := ih (by omega)
    dsimp only at hs ⊢
    have hm' : ¬ m = 80 := by omega
    refine stepN_succ hs ?_
    rw [step_round (n := ⟨m, by omega⟩) (by simp [hm']) (by simp [hm']; omega), List.range_succ, List.foldl_append]
    simp only [List.foldl_cons, List.foldl_nil, refRound, State.roundStep, State.advance_eq, State.setRegs,
      State.roundTemp]
    have hg : group ⟨m, by omega⟩ = Fin.ofNat 4 (m / 20) := Fin.ext (by simp [group, Fin.ofNat]; omega)
    have hw : s.W.toList.getD m 0 = s.W[m]'(by omega) := by
      have : m < 80 := by omega
      simp [this]
    rw [hg, hw]
    by_cases e : m = 79
    · subst e; simp
    · simp [e, show ¬ m + 1 = 80 by omega]

/-- The schedule PARSE leaves begins with the reference function's sixteen words. -/
theorem State.Parsed.take {s : State} {w : Vector Word 80} (h : s.Parsed w) :
    w.toList.take 16 = parseBlock s.block := by
  apply List.ext_getElem
  · simp [parseBlock]
  · intro k h1 h2
    simp [parseBlock] at h2
    simp only [parseBlock, List.getElem_take, Vector.getElem_toList, List.getElem_map, List.getElem_range]
    have e : ∀ n (hn : n < 64), s.block.getD n 0 = s.readByte ⟨n, hn⟩ := by
      intro n hn
      simp [State.block, Vector.getD, hn]
    rw [e _ (by omega), e _ (by omega), e _ (by omega), e _ (by omega)]
    exact h.low ⟨k, by omega⟩ h2

end Sys2Proof.Machine
end

