-- ==== Sys2Proof/Tests/Slice0.lean ====
section
/-! SUPPORT. Tests of the model against the vectors of spec/95_test_vectors.md, whose expected values stand there, and for every
obligation with hypotheses a witness that meets them (`witness_<name>`, with one theorem more per clause where clauses meet). -/

namespace Sys2Proof.Tests

open Sys2Proof Sys2Proof.Machine

/-! ## Helpers -/

/-- The initial state `IV` of 95_test_vectors (G1; notes/assumptions/21.md). -/
def iv : Vector Word 5 := #v[0x67452301, 0xEFCDAB89, 0x98BADCFE, 0x10325476, 0xC3D2E1F0]

/-- The padded block of "abc" (95 section 1.1; notes/assumptions/21.md). -/
def abcBytes : Memory := [(0, 0x61), (1, 0x62), (2, 0x63), (3, 0x80), (63, 0x18)]

/-- 95 section 2.11's "ready": `IV` and the padded "abc" block written, no fault. -/
def ready : State := { State.reset with H := iv, HV := fullHV, B := abcBytes, BV := fullBV }

/-- `ready` while the block runs, at `(p, t)`. -/
def busyAt (p : Phase) (t : BitVec 7) : State :=
  { ready with BV := if p = .parse then fullBV else 0, phase := p, t := t }

/-- `s` with the command `w` on the port. -/
def presenting (w : CmdWord) (s : State) : State := { s with host := [w] }

/-- A predicate of the next state, false where there is none. -/
def afterwards (o : Host.Outcome State Fault Refusal) (p : State → Bool) : Bool :=
  match o with
  | .next u => p u
  | .fault _ => false
  | .refused _ => false

theorem exists_of_afterwards {o : Host.Outcome State Fault Refusal} (h : afterwards o (fun _ => true) = true) :
    ∃ u, o = .next u := by
  cases o with
  | next u => exact ⟨u, rfl⟩
  | fault _ => cases h
  | refused _ => cases h

/-- The working registers, as 95 section 2.7 lists them. -/
def regs (s : State) : List Word := [s.a, s.b, s.c, s.d, s.e]

/-- A state in ROUND at `t` with these registers and this schedule word. -/
def roundState (t : BitVec 7) (r : Regs) (k : Fin 80) (w : Word) : State :=
  { busyAt .round t with a := r.a, b := r.b, c := r.c, d := r.d, e := r.e, W := State.reset.W.set k.val w }

/-! ## WellFormed: an ill-formed term for each check, refused -/

theorem test_wellFormed_rsvd67 : ¬ (Instr.rsvd67 8 0 0).WellFormed ∧ ¬ (Instr.rsvd67 5 0 0).WellFormed := by decide
theorem test_wellFormed_rsvd8F : ¬ (Instr.rsvd8F 7 0 0).WellFormed := by decide
theorem test_wellFormed_sched : ¬ (Instr.sched 15).WellFormed ∧ ¬ (Instr.sched 80).WellFormed := by decide
theorem test_wellFormed_roundCh : ¬ (Instr.roundCh 20).WellFormed := by decide
theorem test_wellFormed_roundPar1 : ¬ (Instr.roundPar1 19).WellFormed ∧ ¬ (Instr.roundPar1 40).WellFormed := by decide
theorem test_wellFormed_roundMaj : ¬ (Instr.roundMaj 39).WellFormed ∧ ¬ (Instr.roundMaj 60).WellFormed := by decide
theorem test_wellFormed_roundPar3 : ¬ (Instr.roundPar3 59).WellFormed ∧ ¬ (Instr.roundPar3 80).WellFormed := by decide

/-! ## Decoding: a word written out from the spec for every constructor (30_encoding R61, R62, R67; 95 section 2.11) -/

theorem test_decode_nop : decodeCmd 0x00000000001 = .nop 0 1 := by decide
theorem test_decode_wrh : decodeCmd 0x104C3D2E1F0 = .wrh 4 0xC3D2E1F0 := by decide
theorem test_decode_rdh : decodeCmd 0x20300000000 = .rdh 3 0 := by decide
theorem test_decode_wrb : decodeCmd 0x33F00000018 = .wrb 63 0x18 := by decide
theorem test_decode_wrw : decodeCmd 0x40061626380 = .wrw 0 0x61626380 := by decide
theorem test_decode_start : decodeCmd 0x50100000000 = .start 1 0 := by decide
theorem test_decode_rsvd67 :
    decodeCmd 0x60000000000 = .rsvd67 6 0 0 ∧ decodeCmd 0x7FFFFFFFFFF = .rsvd67 7 0xFF 0xFFFFFFFF := by decide
theorem test_decode_rsvd8F :
    decodeCmd 0x80000000000 = .rsvd8F 8 0 0 ∧ decodeCmd 0xFFFFFFFFFFF = .rsvd8F 15 0xFF 0xFFFFFFFF := by decide
theorem test_decode_parse : decodeSeq 0b0010000000 = .ok .parse := by decide
theorem test_decode_sched :
    decodeSeq 0b0100010000 = .ok (.sched 16) ∧ decodeSeq 0b0101001111 = .ok (.sched 79) := by decide
theorem test_decode_seed : decodeSeq 0b0110000000 = .ok .seed := by decide
theorem test_decode_roundCh :
    decodeSeq 0b1000000000 = .ok (.roundCh 0) ∧ decodeSeq 0b1000010011 = .ok (.roundCh 19) := by decide
theorem test_decode_roundPar1 :
    decodeSeq 0b1000010100 = .ok (.roundPar1 20) ∧ decodeSeq 0b1000100111 = .ok (.roundPar1 39) := by decide
theorem test_decode_roundMaj :
    decodeSeq 0b1000101000 = .ok (.roundMaj 40) ∧ decodeSeq 0b1000111011 = .ok (.roundMaj 59) := by decide
theorem test_decode_roundPar3 :
    decodeSeq 0b1000111100 = .ok (.roundPar3 60) ∧ decodeSeq 0b1001001111 = .ok (.roundPar3 79) := by decide
theorem test_decode_fold : decodeSeq 0b1010000000 = .ok .fold := by decide
theorem test_decode_idle : decodeSeq 0 = .error .idle := by decide
theorem test_decode_unreachable : decodeSeq 0b0000000001 = .error .noMicroOp ∧ decodeSeq 0b0100001111 = .error .noMicroOp ∧
    decodeSeq 0b1001010000 = .error .noMicroOp ∧ decodeSeq 0b1110000000 = .error .noMicroOp := by decide
theorem test_decodeTableWord : decodeTableWord 44 0x10067452301 = some (.wrh 0 0x67452301) ∧
    decodeTableWord 48 0x50000000000 = some (.start 0 0) ∧ decodeTableWord 10 0x214 = some (.roundPar1 20) ∧
    decodeTableWord 16 0x280 = some .fold ∧ decodeTableWord 16 0x100 = none ∧ decodeTableWord 44 (2 ^ 44) = none := by
  decide

/-- A word placed by `withFetchWord` is what the next step runs. -/
theorem test_withFetchWord_cmd : afterwards (step (State.reset.withFetchWord 44 0x10067452301))
    (fun u => u.H[0] = 0x67452301 ∧ u.HV = 1 ∧ u.responses = [0]) = true := by decide
theorem test_withFetchWord_seq : afterwards (step (State.reset.withFetchWord 10 0x180))
    (fun u => u.phase = .round ∧ u.t = 0) = true := by decide

/-! ## The datapath (95 sections 2.1, 2.2, 2.4, 2.5) -/

theorem test_rotl : rotl 0x12345678 30 = 0x048D159E ∧ rotl 0x80000000 1 = 1 ∧ rotl 0x12345678 0 = 0x12345678 := by decide
theorem test_fsel : fsel 0 0x0F0F0F0F 0x33333333 0x55555555 = 0x53535353 ∧
    fsel 1 0x0F0F0F0F 0x33333333 0x55555555 = 0x69696969 ∧ fsel 2 0x0F0F0F0F 0x33333333 0x55555555 = 0x17171717 ∧
    fsel 3 0x0F0F0F0F 0x33333333 0x55555555 = 0x69696969 := by decide
/-- The document's own spot check (95 section 1.2). -/
theorem test_maj_spot_check : maj 0xFFFFFFFF 0 0 = 0 := by decide
theorem test_add : add32 0xC3D2E1F0 0xD8FDF6AD = 0x9CD0D89D ∧
    add5 0xE8A4602C 0x98BADCFE 0xC3D2E1F0 0x5A827999 0x61626380 = 0x0116FC33 := by decide
theorem test_be32 : be32 0x01 0x02 0x03 0x04 = 0x01020304 := by decide
/-- The document's digest of "abc" begins a9 99 3e 36 and ends 9d (95 section 1.1, 20_memory R42). -/
theorem test_digestByte : digestByte #v[0xA9993E36, 0, 0, 0, 0x9CD0D89D] 0 0 = 0xA9 ∧
    digestByte #v[0xA9993E36, 0, 0, 0, 0x9CD0D89D] 0 3 = 0x36 ∧
    digestByte #v[0xA9993E36, 0, 0, 0, 0x9CD0D89D] 4 3 = 0x9D := by decide

/-! ## Commands, one step each (95 section 2.11) -/

theorem test_nop : afterwards (step (presenting 0x00000000000 State.reset))
    (fun u => u = { State.reset with responses := [0x000000000] }) = true := by decide
theorem test_nop_badOperand : afterwards (step (presenting 0x00000000001 State.reset))
    (fun u => u = { State.reset with fault := .badOperand, responses := [0x200000000] }) = true := by decide
theorem test_wrh : afterwards (step (presenting 0x104C3D2E1F0 State.reset))
    (fun u => u.H[4] = 0xC3D2E1F0 ∧ u.HV = 0b10000 ∧ u.responses = [0]) = true := by decide
theorem test_wrh_badOperand : afterwards (step (presenting 0x10500000000 State.reset))
    (fun u => u.HV = 0 ∧ u.fault = .badOperand ∧ u.responses = [0x200000000]) = true := by decide
theorem test_rdh : afterwards (step (presenting 0x20400000000 ready))
    (fun u => u = { ready with responses := [0x0C3D2E1F0] }) = true := by decide
theorem test_rdh_stateUninit : afterwards (step (presenting 0x20000000000 State.reset))
    (fun u => u.fault = .stateUninit ∧ u.responses = [0x300000000]) = true := by decide
theorem test_wrb : afterwards (step (presenting 0x33F00000018 State.reset))
    (fun u => u.B = [(63, 0x18)] ∧ u.BV = 0x8000000000000000 ∧ u.responses = [0]) = true := by decide
theorem test_wrb_badOperand : afterwards (step (presenting 0x30000000100 State.reset))
    (fun u => u.B = [] ∧ u.BV = 0 ∧ u.fault = .badOperand) = true := by decide
theorem test_wrw : afterwards (step (presenting 0x40061626380 State.reset))
    (fun u => u.B = [(0, 0x61), (1, 0x62), (2, 0x63), (3, 0x80)] ∧ u.BV = 0xF) = true := by decide
theorem test_wrw_last : afterwards (step (presenting 0x40F00000018 State.reset))
    (fun u => u.B.read 63 = 0x18 ∧ u.B.read 60 = 0 ∧ u.BV = 0xF000000000000000) = true := by decide
theorem test_start : afterwards (step (presenting 0x50000000000 ready))
    (fun u => u.phase = .parse ∧ u.t = 0 ∧ u.busy = true ∧ u.responses = [0]) = true := by decide
theorem test_start_blockIncomplete : afterwards (step (presenting 0x50000000000 { ready with BV := 0 }))
    (fun u => u.phase = .idle ∧ u.fault = .blockIncomplete ∧ u.responses = [0x400000000]) = true := by decide
theorem test_rsvd67 : afterwards (step (presenting 0x70000000000 { ready with fault := .stateUninit }))
    (fun u => u.fault = .stateUninit ∧ u.responses = [0x100000000]) = true := by decide
theorem test_rsvd8F : afterwards (step (presenting 0xFFFFFFFFFFF ready))
    (fun u => u = { ready with fault := .illegalOp, responses := [0x100000000] }) = true := by decide

/-! ## Micro-operations, one step each (95 sections 2.5 to 2.8) -/

theorem test_parse : afterwards (step (busyAt .parse 0))
    (fun u => u.W[0] = 0x61626380 ∧ u.W[15] = 0x18 ∧ u.BV = 0 ∧ u.phase = .sched ∧ u.t = 16) = true := by decide +kernel
theorem test_sched_16 : afterwards (step { busyAt .sched 16 with W := State.reset.W.set 0 0x61626380 })
    (fun u => u.W[16] = 0xC2C4C700 ∧ u.phase = .sched ∧ u.t = 17) = true := by decide +kernel
theorem test_sched_79 : afterwards (step { busyAt .sched 79 with
      W := (((State.reset.W.set 76 0xE6E60B69).set 71 0x458546F4).set 65 0x000F0000).set 63 0x627B49A1 })
    (fun u => u.W[79] = 0x822E0879 ∧ u.phase = .seed ∧ u.t = 0) = true := by decide +kernel
theorem test_seed : afterwards (step (busyAt .seed 0))
    (fun u => regs u = [0x67452301, 0xEFCDAB89, 0x98BADCFE, 0x10325476, 0xC3D2E1F0] ∧ u.H = iv ∧ u.phase = .round) = true := by
  decide
theorem test_roundCh_0 : afterwards (step (roundState 0
      ⟨0x67452301, 0xEFCDAB89, 0x98BADCFE, 0x10325476, 0xC3D2E1F0⟩ 0 0x61626380))
    (fun u => regs u = [0x0116FC33, 0x67452301, 0x7BF36AE2, 0x98BADCFE, 0x10325476] ∧ u.t = 1) = true := by decide +kernel
theorem test_roundCh_19 : afterwards (step (roundState 19 ⟨0, 0xFFFFFFFF, 0x12345678, 0x9ABCDEF0, 0⟩ 19 0))
    (fun u => regs u = [0x6CB6D011, 0, 0xFFFFFFFF, 0x12345678, 0x9ABCDEF0] ∧ u.t = 20) = true := by decide +kernel
theorem test_roundPar1_20 : afterwards (step (roundState 20 ⟨0, 0xFFFFFFFF, 0x12345678, 0x9ABCDEF0, 0⟩ 20 0))
    (fun u => regs u = [0xE6516318, 0, 0xFFFFFFFF, 0x12345678, 0x9ABCDEF0] ∧ u.t = 21) = true := by decide +kernel
theorem test_roundPar1_39 : afterwards (step (roundState 39
      ⟨0x4C986405, 0xDC63973F, 0x03D447F6, 0xF72EEC32, 0x085E5AB5⟩ 39 0x000018C0))
    (fun u => regs u = [0x32DE1CBA, 0x4C986405, 0xF718E5CF, 0x03D447F6, 0xF72EEC32]) = true := by decide +kernel
theorem test_roundMaj_40 : afterwards (step (roundState 40
      ⟨0x32DE1CBA, 0x4C986405, 0xF718E5CF, 0x03D447F6, 0xF72EEC32⟩ 40 0xD2E138C4))
    (fun u => regs u = [0xFC87DEDF, 0x32DE1CBA, 0x53261901, 0xF718E5CF, 0x03D447F6]) = true := by decide +kernel
theorem test_roundMaj_59 : afterwards (step (roundState 59
      ⟨0x09D785FD, 0xD262FF50, 0xF211824F, 0xD79915AB, 0x5EDC7DDB⟩ 59 0x44584CB7))
    (fun u => regs u = [0x3F52DE5A, 0x09D785FD, 0x3498BFD4, 0xF211824F, 0xD79915AB]) = true := by decide +kernel
theorem test_roundPar3_60 : afterwards (step (roundState 60
      ⟨0x3F52DE5A, 0x09D785FD, 0x3498BFD4, 0xF211824F, 0xD79915AB⟩ 60 0x7BA06619))
    (fun u => regs u = [0xD756C147, 0x3F52DE5A, 0x4275E17F, 0x3498BFD4, 0xF211824F]) = true := by decide +kernel
theorem test_roundPar3_79 : afterwards (step (roundState 79
      ⟨0x5738D5E1, 0x860D21CC, 0x681E6DF6, 0xD8FDF6AD, 0xD7B9DA25⟩ 79 0x822E0879))
    (fun u => regs u = [0x42541B35, 0x5738D5E1, 0x21834873, 0x681E6DF6, 0xD8FDF6AD] ∧ u.phase = .fold ∧ u.t = 0) = true := by
  decide +kernel
theorem test_fold : afterwards (step { busyAt .fold 0 with
      a := 0x42541B35, b := 0x5738D5E1, c := 0x21834873, d := 0x681E6DF6, e := 0xD8FDF6AD })
    (fun u => u.H = #v[0xA9993E36, 0x4706816A, 0xBA3E2571, 0x7850C26C, 0x9CD0D89D] ∧ u.phase = .idle) = true := by decide
theorem test_fold_wraps : afterwards (step { busyAt .fold 0 with
      H := #v[0xFFFFFFFF, 0x80000000, 0, 1, 0x7FFFFFFF], a := 1, b := 0x80000000, c := 0, d := 0xFFFFFFFF, e := 1 })
    (fun u => u.H = #v[0, 0, 0, 0, 0x80000000]) = true := by decide

/-- The value of SEQ that has no meaning is refused by name (30_encoding R67). -/
theorem test_unreachable_is_refused : step (busyAt .sched 15) = .refused .noMicroOp ∧
    step (busyAt .idle 1) = .refused .noMicroOp := ⟨rfl, rfl⟩

/-! ## The reference function against the document's known-answer vectors (95 sections 1.1, 2.9) -/

set_option maxRecDepth 20000 in
theorem test_compress1_abc : compress1 iv ready.block = #v[0xA9993E36, 0x4706816A, 0xBA3E2571, 0x7850C26C, 0x9CD0D89D] := by
  decide +kernel

set_option maxRecDepth 20000 in
theorem test_compress1_empty : compress1 iv ({ ready with B := [(0, 0x80)] } : State).block =
    #v[0xDA39A3EE, 0x5E6B4B0D, 0x3255BFEF, 0x95601890, 0xAFD80709] := by decide +kernel

/-! ## Pseudo-commands (30_encoding R71; 95 section 4, programs P1 and P5) -/

theorem test_ldState : ldState iv =
    [0x10067452301, 0x101EFCDAB89, 0x10298BADCFE, 0x10310325476, 0x104C3D2E1F0] := by decide
theorem test_rdState : rdState = [0x20000000000, 0x20100000000, 0x20200000000, 0x20300000000, 0x20400000000] := by decide
theorem test_compressCommands_no_blocks : compressCommands iv [] = ldState iv ++ rdState := by decide
theorem test_compress1Commands : (compress1Commands (.bytes ready.block)).getLast? = some 0x50000000000 ∧
    (compress1Commands (.bytes ready.block))[63]? = some 0x33F00000018 ∧
    (compress1Commands (.bytes ready.block)).length = 65 := by
  decide +kernel
/-- The sixteen words of the padded "abc" block (95 section 1.1) are its 64 bytes. -/
theorem test_blockLoad_words :
    (BlockLoad.words #v[0x61626380, 0, 0, 0, 0, 0, 0, 0, 0, 0, 0, 0, 0, 0, 0, 0x18]).block = ready.block := by decide +kernel
theorem test_ldBlkW : (ldBlkW (Vector.replicate 16 0x61616161))[15]? = some 0x40F61616161 := by decide +kernel

/-! ## Witnesses: the hypotheses of each obligation, met together; a boundary value for each clause -/

theorem witness_DecodeOfEncodeIsTheOperation : (Instr.roundPar3 79).WellFormed ∧ (Instr.rsvd67 7 0xFF 1).WellFormed ∧
    (Instr.rsvd8F 8 0 0).WellFormed ∧ (Instr.sched 16).WellFormed := by decide

theorem witness_DecodedOperationEncodesToItsWord : decode (.seq 0b1000111011) = .ok (.roundMaj 59) ∧
    decode (.cmd 0x80000000000) = .ok (.rsvd8F 8 0 0) := by decide

/-- `op` at the boundaries of the last three clauses. -/
theorem witness_CommandDecodesByItsOpField :
    (0x50100000002 : CmdWord).toNat = (5 : BitVec 4).toNat * 2 ^ 40 + (1 : BitVec 8).toNat * 2 ^ 32 + (2 : Word).toNat ∧
    (0x60000000000 : CmdWord).toNat = (6 : BitVec 4).toNat * 2 ^ 40 + (0 : BitVec 8).toNat * 2 ^ 32 + (0 : Word).toNat ∧
    (0x7FFFFFFFFFF : CmdWord).toNat =
      (7 : BitVec 4).toNat * 2 ^ 40 + (0xFF : BitVec 8).toNat * 2 ^ 32 + (0xFFFFFFFF : Word).toNat ∧
    (0x80000000000 : CmdWord).toNat = (8 : BitVec 4).toNat * 2 ^ 40 + (0 : BitVec 8).toNat * 2 ^ 32 + (0 : Word).toNat := by
  decide

theorem witness_TableRowsCoverEachWordOnce : decodeSeq 0b0100010000 = .ok (.sched 16) ∧
    decodeSeq 0b0100001111 = .error .noMicroOp ∧ decodeSeq 0 = .error .idle := by decide

/-- The word and the state of the rows at the ends of their ranges, and of a value outside the table. -/
theorem witness_SequencerWordSelectsTheMicroOperation :
    ((0b1001001111 : SeqWord).toNat = (4 : BitVec 3).toNat * 128 + (79 : BitVec 7).toNat ∧
      (busyAt .round 79).phase.code = 4 ∧ (busyAt .round 79).t = 79 ∧ decodeSeq 0b1001001111 = .ok (.roundPar3 79)) ∧
    ((0b0100001111 : SeqWord).toNat = (2 : BitVec 3).toNat * 128 + (15 : BitVec 7).toNat ∧
      (busyAt .sched 15).phase.code = 2 ∧ (busyAt .sched 15).t = 15 ∧ decodeSeq 0b0100001111 = .error .noMicroOp) := by
  decide

theorem witness_StepRunsTheDecodedOperation :
    ((presenting 0x50000000000 ready).phase = .idle ∧ (presenting 0x50000000000 ready).t = 0 ∧
      (presenting 0x50000000000 ready).host = [0x50000000000]) ∧
    decodeSeq ((busyAt .sched 79).phase.code ++ (busyAt .sched 79).t) = .ok (.sched 79) ∧
    (ready.phase = .idle ∧ ready.t = 0 ∧ ready.host = []) := by decide

theorem witness_CommandIsHeldWhileBusyAndAcceptedWhenIdle :
    ((presenting 0x20000000000 (busyAt .seed 0)).phase ≠ .idle ∧
      ∃ u, step (presenting 0x20000000000 (busyAt .seed 0)) = .next u) ∧
    (presenting 0x20000000000 (busyAt .parse 0)).Inv ∧
    ((presenting 0x20000000000 ready).phase = .idle ∧ (presenting 0x20000000000 ready).t = 0 ∧
      (presenting 0x20000000000 ready).host = [0x20000000000]) :=
  ⟨⟨by decide, _, rfl⟩, by decide, by decide⟩

/-- Each branch of the chain, in turn: an illegal opcode, an operand out of range, `H[2]` never written, START without a state,
START without a block, a command performed. -/
theorem witness_ChecksOfACommandDecideInOrder :
    6 ≤ (0x60000000000 : CmdWord).toNat / 2 ^ 40 ∧
    ¬ operandsLegal 1 5 0 ∧ ¬ operandsLegal 3 0 0x100 ∧ ¬ operandsLegal 4 16 0 ∧
    (operandsLegal 2 2 0 ∧ State.reset.HV.getLsbD 2 = false) ∧
    (operandsLegal 5 0 0 ∧ State.reset.HV ≠ 0b11111) ∧
    (({ ready with BV := 0 } : State).HV = 0b11111 ∧ ({ ready with BV := 0 } : State).BV ≠ 0xFFFFFFFFFFFFFFFF) ∧
    (operandsLegal 2 4 0 ∧ ready.HV.getLsbD 4 = true ∧ (presenting 0x20400000000 ready).phase = .idle ∧
      (presenting 0x20400000000 ready).t = 0) :=
  ⟨by decide, by decide, by decide, by decide, by decide, by decide, by decide, by decide⟩

theorem witness_FaultEntryChangesOnlyFaultAndTheResponse :
    ∃ u, (presenting 0x10500000000 ready).phase = .idle ∧ (presenting 0x10500000000 ready).t = 0 ∧
      (presenting 0x10500000000 ready).host = [0x10500000000] ∧ step (presenting 0x10500000000 ready) = .next u ∧
      u.responses = (presenting 0x10500000000 ready).responses ++ [(2 : BitVec 3) ++ (0 : Word)] ∧ (2 : BitVec 3) ≠ 0 :=
  ⟨_, rfl, rfl, rfl, rfl, by decide, by decide⟩

/-- A step with a cause recorded, a step that records one, and a step that records none. -/
theorem witness_FirstFaultCauseSticks :
    (∃ u, step (presenting 0x70000000000 { ready with fault := .stateUninit }) = .next u ∧
      (presenting 0x70000000000 { ready with fault := .stateUninit }).fault.code ≠ 0) ∧
    (∃ u, step (presenting 0x70000000000 ready) = .next u ∧ (presenting 0x70000000000 ready).fault.code = 0 ∧
      u.fault.code = 1) ∧
    (∃ u, step (presenting 0 ready) = .next u ∧ (presenting 0 ready).fault.code = 0 ∧ u.fault.code = 0) :=
  ⟨⟨_, rfl, by decide⟩, ⟨_, rfl, by decide, by decide⟩, ⟨_, rfl, by decide, by decide⟩⟩

theorem witness_RecordedFaultDoesNotChangeWhatIsDone :
    ∃ u, step (presenting 0x10500000000 { ready with fault := .blockIncomplete }) = .next u ∧
      (presenting 0x10500000000 { ready with fault := .blockIncomplete }).fault ≠ .noFault := ⟨_, rfl, by decide⟩

theorem witness_OnlyWrhAndFoldChangeStateWords :
    (∃ u, step (presenting 0x10000000005 ready) = .next u ∧ u.H ≠ (presenting 0x10000000005 ready).H) ∧
    (∃ u, step ({ busyAt .fold 0 with a := 1 } : State) = .next u ∧ u.H ≠ ({ busyAt .fold 0 with a := 1 } : State).H) :=
  ⟨⟨_, rfl, by decide⟩, ⟨_, rfl, by decide⟩⟩

theorem witness_ValidBitsAreClearedOnlyByResetAndParse :
    ∃ u, step (busyAt .parse 0) = .next u ∧ (busyAt .parse 0).validH 4 = true ∧ (busyAt .parse 0).validB 63 = true ∧
      u.validB 63 = false := ⟨_, rfl, by decide, by decide, by decide⟩

theorem witness_NopAnswersAndChangesNothing : ((1 : BitVec 8) ≠ 0 ∨ (0 : Word) ≠ 0) ∧ ((0 : BitVec 8) ≠ 0 ∨ (1 : Word) ≠ 0) := by
  decide

theorem witness_WrhWritesOneStateWord : (4 : BitVec 8).toNat = (4 : Fin 5).val ∧ (0 : BitVec 8).toNat = (0 : Fin 5).val ∧
    5 ≤ (5 : BitVec 8).toNat := by decide

theorem witness_RdhAnswersOneStateWord : ((4 : BitVec 8).toNat = (4 : Fin 5).val ∧ ready.HV.getLsbD 4 = true) ∧
    ((0 : BitVec 8).toNat = (0 : Fin 5).val ∧ State.reset.HV.getLsbD 0 = false) ∧ (5 ≤ (5 : BitVec 8).toNat) ∧
    (1 : Word) ≠ 0 := by decide

theorem witness_WrbWritesOneBlockByte : ready.B.wf = true ∧
    ((63 : BitVec 8).toNat = (63 : Fin 64).val ∧ (0xFF : Word).toNat ≤ 0xFF) ∧ 64 ≤ (64 : BitVec 8).toNat ∧
    0xFF < (0x100 : Word).toNat := by decide

theorem witness_WrwWritesFourBlockBytesBigEndian : ready.B.wf = true ∧ (15 : BitVec 8).toNat = (15 : Fin 16).val ∧
    16 ≤ (16 : BitVec 8).toNat := by decide

theorem witness_StartEntersParse : (ready.HV = 0b11111 ∧ ready.BV = 0xFFFFFFFFFFFFFFFF) ∧
    (({ ready with BV := 0x7FFFFFFFFFFFFFFF } : State).HV = 0b11111 ∧
      ({ ready with BV := 0x7FFFFFFFFFFFFFFF } : State).BV ≠ 0xFFFFFFFFFFFFFFFF) ∧
    ({ ready with HV := 0b01111 } : State).HV ≠ 0b11111 ∧ ((1 : BitVec 8) ≠ 0 ∨ (0 : Word) ≠ 0) := by decide

theorem witness_ReservedOpcodesRaiseIllegalOp : (presenting 0x60000000000 ready).phase = .idle ∧
    (presenting 0x60000000000 ready).t = 0 ∧ (presenting 0x60000000000 ready).host = [0x60000000000] ∧
    6 ≤ (0x60000000000 : CmdWord).toNat / 2 ^ 40 := by decide

theorem witness_ParseCopiesTheBlockIntoTheSchedule : (15 : Fin 80).val < 16 ∧ 16 ≤ (16 : Fin 80).val ∧
    (busyAt .parse 0).phase = .parse ∧ (busyAt .parse 0).t = 0 := by decide

theorem witness_SchedGeneratesOneScheduleWord :
    ((16 : BitVec 7).toNat = (16 : Fin 80).val ∧ 16 ≤ (16 : Fin 80).val ∧ (busyAt .sched 16).phase = .sched ∧
      (busyAt .sched 16).t = 16) ∧
    ((79 : BitVec 7).toNat = (79 : Fin 80).val ∧ 16 ≤ (79 : Fin 80).val ∧ (busyAt .sched 79).phase = .sched ∧
      (busyAt .sched 79).t = 79) := by decide

theorem witness_SeedCopiesTheStateIntoTheRegisters : (busyAt .seed 0).phase = .seed ∧ (busyAt .seed 0).t = 0 := by decide

/-- The last index of one group and the first of the next, for each boundary. -/
theorem witness_RoundStepOfEachGroup :
    ((19 : BitVec 7).toNat = (19 : Fin 80).val ∧ (19 : Fin 80).val ≤ 19) ∧
    ((20 : BitVec 7).toNat = (20 : Fin 80).val ∧ 20 ≤ (20 : Fin 80).val ∧ (20 : Fin 80).val ≤ 39) ∧
    ((40 : BitVec 7).toNat = (40 : Fin 80).val ∧ 40 ≤ (40 : Fin 80).val ∧ (40 : Fin 80).val ≤ 59) ∧
    ((60 : BitVec 7).toNat = (60 : Fin 80).val ∧ 60 ≤ (60 : Fin 80).val) ∧
    ((busyAt .round 79).phase = .round ∧ (busyAt .round 79).t = 79) := by decide

theorem witness_FoldAddsTheRegistersIntoTheState : (busyAt .fold 0).phase = .fold ∧ (busyAt .fold 0).t = 0 := by decide

theorem witness_FrameOfCommandsThatStoreNothing :
    (∃ u, exec (.rdh 4 0) ready = .next u) ∧
    ∃ (op : BitVec 4) (idx : BitVec 8) (data : Word), Instr.rdh 4 0 = .nop idx data ∨ Instr.rdh 4 0 = .rdh idx data ∨
      Instr.rdh 4 0 = .start idx data ∨ Instr.rdh 4 0 = .rsvd67 op idx data ∨ Instr.rdh 4 0 = .rsvd8F op idx data :=
  ⟨⟨_, rfl⟩, 0, 4, 0, Or.inr (Or.inl rfl)⟩

theorem witness_FrameOfWrh : (∃ u, exec (.wrh 4 7) ready = .next u) ∧ (4 : BitVec 8).toNat ≠ (3 : Fin 5).val ∧
    (4 : BitVec 8).toNat ≤ 4 ∧ (∃ u, exec (.wrh 5 7) ready = .next u) := ⟨⟨_, rfl⟩, by decide, by decide, ⟨_, rfl⟩⟩

theorem witness_FrameOfBlockStores :
    ((∃ u, exec (.wrb 63 0xFF) ready = .next u) ∧ byteOperands 63 0xFF = some (63, 0xFF)) ∧
    ((∃ u, exec (.wrb 64 0) ready = .next u) ∧ byteOperands 64 0 = none) ∧
    ((∃ u, exec (.wrw 15 7) ready = .next u) ∧ wordIndex 15 = some 15) ∧
    ((∃ u, exec (.wrw 16 7) ready = .next u) ∧ wordIndex 16 = none) :=
  ⟨⟨⟨_, rfl⟩, by decide⟩, ⟨⟨_, rfl⟩, by decide⟩, ⟨⟨_, rfl⟩, by decide⟩, ⟨⟨_, rfl⟩, by decide⟩⟩

/-- SCHED, a word it does not write, and PARSE, a word it does not write. -/
theorem witness_FrameOfMicroOperations :
    ((∃ u, exec (.sched 16) (busyAt .sched 16) = .next u) ∧
      Instr.sched 16 ∈ [Instr.parse, .sched 16, .seed, .roundCh 16, .roundPar1 16, .roundMaj 16, .roundPar3 16, .fold] ∧
      Instr.sched 16 ≠ .fold ∧ Instr.sched 16 ≠ .parse ∧ ¬ (Instr.sched 16 = .parse ∧ (15 : Fin 80).val < 16) ∧
      ¬ (Instr.sched 16 = .sched 16 ∧ (15 : Fin 80).val = (16 : BitVec 7).toNat)) ∧
    ((∃ u, exec .parse (busyAt .parse 0) = .next u) ∧
      Instr.parse ∈ [Instr.parse, .sched 16, .seed, .roundCh 16, .roundPar1 16, .roundMaj 16, .roundPar3 16, .fold] ∧
      ¬ (Instr.parse = .parse ∧ (16 : Fin 80).val < 16)) :=
  ⟨⟨⟨_, rfl⟩, by decide⟩, ⟨⟨_, rfl⟩, by decide⟩⟩

theorem witness_RepeatedWriteLeavesTheSameState : ready.B.wf = true ∧
    (Instr.wrw 15 7 ∈ [Instr.wrh 15 7, Instr.wrb 15 7, Instr.wrw 15 7] ∧ ∃ u, exec (.wrw 15 7) ready = .next u) ∧
    (Instr.wrh 5 7 ∈ [Instr.wrh 5 7, Instr.wrb 5 7, Instr.wrw 5 7] ∧ ∃ u, exec (.wrh 5 7) ready = .next u) ∧
    (Instr.rdh 4 0 ∈ [Instr.nop 4 0, Instr.rdh 4 0] ∧ ∃ u, exec (.rdh 4 0) ready = .next u) ∧
    (Instr.nop 0 1 ∈ [Instr.nop 0 1, Instr.rdh 0 1] ∧ ∃ u, exec (.nop 0 1) ready = .next u) :=
  ⟨by decide, ⟨by decide, _, rfl⟩, ⟨by decide, _, rfl⟩, ⟨by decide, _, rfl⟩, by decide, _, rfl⟩

/-- A bit that wraps round and a rotation by 0. -/
theorem witness_RotlMovesEveryBitLeftAround : ((31 : Nat) ≤ 31 ∧ (1 : Nat) ≤ 31) ∧ ((0 : Nat) ≤ 31 ∧ (31 : Nat) ≤ 31) := by
  decide

theorem witness_BooleanFunctionsBitByBit : (31 : Nat) ≤ 31 := by decide

theorem witness_GroupSelectsFunctionAndConstant : (19 : Fin 80).val ≤ 19 ∧
    (20 ≤ (20 : Fin 80).val ∧ (20 : Fin 80).val ≤ 39) ∧ (40 ≤ (59 : Fin 80).val ∧ (59 : Fin 80).val ≤ 59) ∧
    60 ≤ (60 : Fin 80).val := by decide

theorem witness_WrwThenParseGivesTheWordBack :
    ready.B.wf = true ∧ (15 : BitVec 8).toNat = (15 : Fin 16).val ∧
    ∃ u, exec (.wrw 15 0x18) ready = .next u ∧ (∃ p, exec .parse u = .next p) ∧ (15 : Fin 80).val = (15 : Fin 16).val ∧
      (63 : BitVec 8).toNat = 4 * (15 : Fin 16).val + (3 : Fin 4).val ∧ (0xFF : Word).toNat ≤ 0xFF ∧
      ∃ x, exec (.wrb 63 0xFF) u = .next x :=
  ⟨by decide, by decide, _, rfl, ⟨_, rfl⟩, by decide, by decide, by decide, _, rfl⟩

theorem witness_BlockBufferStaysCanonical :
    (presenting 0x40F00000000 ready).B.wf = true ∧ ∃ u, step (presenting 0x40F00000000 ready) = .next u := ⟨by decide, _, rfl⟩

theorem witness_EveryStepKeepsTheInvariant : (busyAt .sched 79).Inv ∧ ∃ u, step (busyAt .sched 79) = .next u :=
  ⟨by decide, _, rfl⟩

theorem witness_InvariantStateAlwaysSteps : (busyAt .round 79).Inv ∧ (busyAt .fold 0).Inv ∧ ready.Inv := by decide

/-- An all-zero schedule of an all-zero block, half generated. -/
theorem witness_EveryStepKeepsTheScheduleInvariant : ({ busyAt .sched 48 with B := [] } : State).ScheduleInv ∧
    ∃ u, step ({ busyAt .sched 48 with B := [] } : State) = .next u := ⟨by decide +kernel, _, rfl⟩

/-- One state for each row of the table, at the ends of the two loops. -/
theorem witness_SequencerMovesAsItsTransitionTable :
    (∃ u, step (presenting 0x50000000000 ready) = .next u ∧
      ∃ rest, (presenting 0x50000000000 ready).host = 0x50000000000 :: rest) ∧
    (∃ u, step (busyAt .parse 0) = .next u) ∧ (∃ u, step (busyAt .sched 78) = .next u) ∧
    (∃ u, step (busyAt .sched 79) = .next u) ∧ (∃ u, step (busyAt .seed 0) = .next u) ∧
    (∃ u, step (busyAt .round 78) = .next u) ∧ (∃ u, step (busyAt .round 79) = .next u) ∧
    (∃ u, step (busyAt .fold 0) = .next u) ∧ ((busyAt .fold 0).Inv ∧ (busyAt .fold 0).phase ≠ .idle) :=
  ⟨⟨_, rfl, _, rfl⟩, ⟨_, rfl⟩, ⟨_, rfl⟩, ⟨_, rfl⟩, ⟨_, rfl⟩, ⟨_, rfl⟩, ⟨_, rfl⟩, ⟨_, rfl⟩, by decide⟩

theorem witness_BlockTakes147Steps : (busyAt .parse 0).phase = .parse ∧ (busyAt .parse 0).t = 0 ∧ 147 ≤ 147 := by decide

theorem witness_BlockTransactionIsCompress1 : (presenting 0x50000000000 ready).phase = .idle ∧
    (presenting 0x50000000000 ready).t = 0 ∧ (presenting 0x50000000000 ready).HV = 0b11111 ∧
    (presenting 0x50000000000 ready).BV = 0xFFFFFFFFFFFFFFFF ∧
    (presenting 0x50000000000 ready).host = [0x50000000000] := by decide

/-- Two blocks, from a state with a fault recorded. -/
theorem witness_CompressCommandsFoldTheBlocks :
    let bs : List BlockLoad := [.bytes ready.block, .words (Vector.replicate 16 0x61616161)]
    let s : State := { State.reset with fault := .badOperand, host := compressCommands iv bs ++ [0] }
    s.phase = .idle ∧ s.t = 0 ∧ s.B.wf = true ∧ s.host = compressCommands iv bs ++ [0] ∧ bs ≠ [] :=
  ⟨rfl, rfl, rfl, rfl, by simp⟩

/-- The commands in reverse order, for each of the three loads. -/
theorem witness_LoadsInAnyOrderFillStateAndBlock :
    (∃ s : State, s.phase = .idle ∧ s.t = 0 ∧ s.host = (ldState iv).reverse ++ [0] ∧
      (ldState iv).reverse.Perm (ldState iv)) ∧
    ∀ b ∈ [BlockLoad.bytes ready.block, .words (Vector.replicate 16 0x61616161)],
      ∃ s : State, s.phase = .idle ∧ s.t = 0 ∧ s.B.wf = true ∧ s.host = b.commands.reverse ++ [0] ∧
        b.commands.reverse.Perm b.commands :=
  ⟨⟨{ ready with host := (ldState iv).reverse ++ [0] }, rfl, rfl, rfl, List.reverse_perm _⟩,
    fun b _ => ⟨{ ready with host := b.commands.reverse ++ [0] }, rfl, rfl, rfl, rfl, List.reverse_perm _⟩⟩

/-- Two states that differ in a working register, a schedule word, `FAULT` and the host's commands. -/
theorem witness_BlockResultDependsOnlyOnStateAndBlock :
    let s := busyAt .parse 0
    let u : State := { s with a := 1, W := s.W.set 20 7, fault := .badOperand, host := [0] }
    s.phase = .parse ∧ s.t = 0 ∧ u.phase = .parse ∧ u.t = 0 ∧ s.H = u.H ∧ (∀ n : Fin 64, s.readByte n = u.readByte n) ∧
      (∃ s', stepN 147 s = .next s') ∧ ∃ u', stepN 147 u = .next u' :=
  ⟨rfl, rfl, rfl, rfl, rfl, fun _ => rfl, exists_of_afterwards (by decide +kernel), exists_of_afterwards (by decide +kernel)⟩

/-- The last window that stays in ROUND and the one that ends in FOLD. -/
theorem witness_RegisterValueMovesThroughTheWindow :
    ((busyAt .round 75).phase = .round ∧ (busyAt .round 75).t.toNat ≤ 76 ∧ (busyAt .round 75).t.toNat ≤ 75) ∧
    ((busyAt .round 76).phase = .round ∧ (busyAt .round 76).t.toNat ≤ 76 ∧ (busyAt .round 76).t.toNat = 76) := by decide

theorem witness_FourSchedStepsAreOneBatch : (busyAt .sched 76).phase = .sched ∧
    (busyAt .sched 76).t.toNat = (76 : Fin 77).val ∧ 16 ≤ (76 : Fin 77).val ∧ (busyAt .sched 16).t.toNat = (16 : Fin 77).val := by
  decide

/-- A step that accepts a WRH of another index; a read of an unwritten word; a write, and another word. -/
theorem witness_StateIsUnreadableAfterReset :
    (State.reset.validH 4 = false ∧ (∃ u, step (presenting 0x10300000000 State.reset) = .next u) ∧
      ¬ ∃ (w : CmdWord) (rest : List CmdWord) (idx : BitVec 8) (v : Word),
        (presenting 0x10300000000 State.reset).phase = .idle ∧ (presenting 0x10300000000 State.reset).host = w :: rest ∧
        decodeCmd w = .wrh idx v ∧ idx.toNat = (4 : Fin 5).val) ∧
    ((4 : BitVec 8).toNat = (4 : Fin 5).val ∧ State.reset.validH 4 = false) ∧ (0 : Fin 5) ≠ 4 := by
  refine ⟨⟨by decide, ⟨_, rfl⟩, ?_⟩, by decide, by decide⟩
  rintro ⟨w, rest, idx, v, -, h, hd, hi⟩
  cases h
  rw [show decodeCmd 0x10300000000 = .wrh 3 0 by decide] at hd
  cases hd
  exact absurd hi (by decide)

/-- Two idle states with nothing written that differ in state words, block bytes, the schedule and the registers; the host writes
a state word. -/
theorem witness_UnspecifiedBitsNeverReachTheHost :
    let s := presenting 0x10000000005 State.reset
    let u : State := { s with H := iv, B := [(3, 1)], W := Vector.replicate 80 7, a := 1, b := 2, c := 3, d := 4, e := 5 }
    s.Inv ∧ s.B.wf = true ∧ u.B.wf = true ∧ s.Agree u ∧ ∃ s', step s = .next s' :=
  ⟨by decide, by decide, by decide, by decide +kernel, _, rfl⟩

end Sys2Proof.Tests
end

section
/-! PROOFS. The fault register and reset (10_state R22, R27): what a step does to `FAULT` and to the list of responses, said
once, and the values reset leaves. -/

namespace Sys2Proof.Machine

@[simp] theorem Cause.code_eq_zero_iff {c : Cause} : c.code = 0 ↔ c = .noFault := by
  cases c <;> decide

/-- What an accepted command does to `FAULT` and the responses: it is performed and answers cause 0, or it faults (60 R176). -/
theorem command_fault_responses {w : CmdWord} {s u : State} (h : exec (decodeCmd w) s = .next u) :
    (u.fault = s.fault ∧ ∃ rdata : Word, u.responses = s.responses ++ [(0 : BitVec 3) ++ rdata]) ∨
    (∃ c : Cause, c ≠ .noFault ∧ u.fault = (if s.fault = .noFault then c else s.fault) ∧
      u.responses = s.responses ++ [c.code ++ (0 : Word)]) := by
  have performed : ∀ {v : State} {rdata : Word}, exec (decodeCmd w) s = .next (v.answered rdata) → v.fault = s.fault →
      v.responses = s.responses →
      u.fault = s.fault ∧ ∃ rdata : Word, u.responses = s.responses ++ [(0 : BitVec 3) ++ rdata] := by
    intro v rdata hv hf hr
    cases h.symm.trans hv
    exact ⟨hf, rdata, by simp [hr]⟩
  obtain ⟨c, hc, he⟩ | ⟨-, he⟩ | ⟨_, _, _, -, -, he⟩ | ⟨_, _, -, -, -, he⟩ | ⟨_, _, _, -, -, -, he⟩ |
    ⟨_, _, _, -, -, he⟩ | ⟨-, -, -, he⟩ := command_cases w s
  case inl =>
    cases h.symm.trans he
    exact Or.inr ⟨c, hc, rfl, rfl⟩
  all_goals exact Or.inl (performed he (by simp) (by simp))

/-- What a step does to `FAULT` and the responses: nothing, or, in IDLE, it answers cause 0 and leaves `FAULT`, or it answers
a cause, which `FAULT` takes if it was 0. -/
theorem step_fault_responses {s u : State} (h : step s = .next u) :
    (u.fault = s.fault ∧ u.responses = s.responses) ∨
    (s.phase = .idle ∧ u.fault = s.fault ∧ ∃ rdata : Word, u.responses = s.responses ++ [(0 : BitVec 3) ++ rdata]) ∨
    (s.phase = .idle ∧ ∃ c : Cause, c ≠ .noFault ∧ u.fault = (if s.fault = .noFault then c else s.fault) ∧
      u.responses = s.responses ++ [c.code ++ (0 : Word)]) := by
  obtain ⟨-, -, -, rfl⟩ | ⟨w, rest, hp, -, -, he⟩ | ⟨w, -, -, -, rfl⟩ | ⟨n, -, -, -, rfl⟩ | ⟨-, -, rfl⟩ |
    ⟨n, -, -, rfl⟩ | ⟨-, -, rfl⟩ := step_cases h
  case inr.inl =>
    rcases command_fault_responses he with hdone | hfault
    · exact Or.inr (Or.inl ⟨hp, hdone⟩)
    · exact Or.inr (Or.inr ⟨hp, hfault⟩)
  all_goals exact Or.inl (by simp [State.roundStep])

theorem step_keeps_recorded_fault {s u : State} (h : step s = .next u) (hs : s.fault ≠ .noFault) : u.fault = s.fault := by
  obtain ⟨hf, -⟩ | ⟨-, hf, -⟩ | ⟨-, c, -, hf, -⟩ := step_fault_responses h
  · exact hf
  · exact hf
  · rw [hf, if_neg hs]

theorem step_records_first_cause {s u : State} (h : step s = .next u) (hs : s.fault = .noFault) :
    u.fault = .noFault ∨ (s.phase = .idle ∧ u.responses = s.responses ++ [u.fault.code ++ (0 : Word)]) := by
  obtain ⟨hf, -⟩ | ⟨-, hf, -⟩ | ⟨hp, c, -, hf, hr⟩ := step_fault_responses h
  · exact Or.inl (hf.trans hs)
  · exact Or.inl (hf.trans hs)
  · rw [if_pos hs] at hf
    exact Or.inr ⟨hp, by rw [hr, hf]⟩

theorem step_without_fault_answers_no_cause {s u : State} (h : step s = .next u) (hs : s.fault = .noFault)
    (hu : u.fault = .noFault) :
    u.responses = s.responses ∨ ∃ rdata : Word, u.responses = s.responses ++ [(0 : BitVec 3) ++ rdata] := by
  obtain ⟨-, hr⟩ | ⟨-, -, hr⟩ | ⟨-, c, hc, hf, -⟩ := step_fault_responses h
  · exact Or.inl hr
  · exact Or.inr hr
  · rw [if_pos hs] at hf
    exact absurd (hf.symm.trans hu) hc

/-- Settles O11: of the three things a step can do to `FAULT` and the responses, only a fault moves `FAULT`, and only from 0. -/
theorem firstFaultCauseSticks : Obligations.FirstFaultCauseSticks := by
  simp only [Obligations.FirstFaultCauseSticks, ne_eq, Cause.code_eq_zero_iff]
  exact ⟨fun left s => s.assertRst_fault left, rfl, fun _ _ => step_keeps_recorded_fault, fun _ _ => step_records_first_cause,
    fun _ _ => step_without_fault_answers_no_cause, fun _ => rfl⟩

theorem State.reset_afterReset : State.reset.AfterReset := by decide

theorem State.assertRst_afterReset (left s : State) : (left.assertRst s).AfterReset :=
  ⟨rfl, rfl, rfl, rfl, rfl⟩

theorem validH_of_HV_zero {s : State} (h : s.HV = 0) (i : Fin 5) : s.validH i = false := by
  simp [State.validH, h]

theorem validB_of_BV_zero {s : State} (h : s.BV = 0) (n : Fin 64) : s.validB n = false := by
  simp [State.validB, h]

/-- Settles O50: the reset event sets these fields whatever it leaves in the others, and a zero `HV` or `BV` has no valid bit. -/
theorem resetLeavesTheSpecifiedValues : Obligations.ResetLeavesTheSpecifiedValues :=
  ⟨State.reset_afterReset, State.assertRst_afterReset,
    fun left s => validH_of_HV_zero (s.assertRst_HV left), fun left s => validB_of_BV_zero (s.assertRst_BV left),
    rfl, rfl, rfl, rfl⟩

end Sys2Proof.Machine
end

section
/-! PROOFS. The encoding family (30_encoding R67, R68): what the sequencer word selects, what the step does where it selects
nothing, and the group's function and constant. -/

namespace Sys2Proof.Machine

/-- A sequencer word is fixed by its two fields read as a number (R67). -/
theorem seqWord_eq_append {p : BitVec 3} {t : BitVec 7} {w : SeqWord} (h : w.toNat = p.toNat * 128 + t.toNat) :
    w = p ++ t := by
  apply BitVec.eq_of_toNat_eq
  rw [h, BitVec.toNat_append, ← Nat.shiftLeft_add_eq_or_of_lt t.isLt, Nat.shiftLeft_eq]

theorem phaseCode_cases (p : BitVec 3) : p = 0 ∨ p = 1 ∨ p = 2 ∨ p = 3 ∨ p = 4 ∨ p = 5 ∨ p = 6 ∨ p = 7 := by
  decide +revert

/-- Where the sequencer selects no micro-operation, the step refuses. -/
theorem step_noMicroOp {s : State} (h : decodeSeqFields s.phase.code s.t = .error .noMicroOp) :
    step s = .refused .noMicroOp := by
  have : s.select = .nothing := by rw [State.select_eq, h]
  rw [step, this]

/-- Every command word has a meaning in every state: it is performed or it faults, and the engine goes on. -/
theorem exec_decodeCmd_next (w : CmdWord) (s : State) : ∃ u, exec (decodeCmd w) s = .next u := by
  obtain ⟨_, -, he⟩ | ⟨-, he⟩ | ⟨_, _, _, -, -, he⟩ | ⟨_, _, -, -, -, he⟩ | ⟨_, _, _, -, -, -, he⟩ |
    ⟨_, _, _, -, -, he⟩ | ⟨-, -, -, he⟩ := command_cases w s
  all_goals exact ⟨_, he⟩

/-- The invariant R26 keeps `SEQ` inside R67's table, so the step has a next state: `t` is 0 in the phases of one step, and
lies in the phase's range in SCHED and ROUND. -/
theorem State.Inv.exists_step {s : State} (hs : s.Inv) : ∃ u, step s = .next u := by
  obtain ⟨hle, hzero, hsched, -⟩ := hs
  have hlt : s.t.toNat < 80 := Nat.lt_succ_of_le hle
  cases hp : s.phase with
  | idle =>
    have ht : s.t = 0 := hzero (by simp [hp])
    cases hh : s.host with
    | nil => exact ⟨s, step_waiting hp ht hh⟩
    | cons w rest =>
      rw [step_command hp ht hh]
      exact exec_decodeCmd_next w _
  | parse =>
    obtain ⟨_, -, h⟩ := step_parse hp (hzero (by simp [hp]))
    exact ⟨_, h⟩
  | sched => exact ⟨_, step_sched hp ⟨s.t.toNat, hlt⟩ (hsched hp) rfl⟩
  | seed => exact ⟨_, step_seed hp (hzero (by simp [hp]))⟩
  | round => exact ⟨_, step_round hp ⟨s.t.toNat, hlt⟩ rfl⟩
  | fold => exact ⟨_, step_fold hp (hzero (by simp [hp]))⟩

theorem State.not_inv_of_step_refused {s : State} {r : Refusal} (h : step s = .refused r) : ¬ s.Inv := by
  intro hs
  obtain ⟨u, hu⟩ := hs.exists_step
  cases h.symm.trans hu

/-- Settles O6: phase by phase the decoder's rows are R67's, and outside them the step refuses, which it never does in the
invariant. -/
theorem sequencerWordSelectsTheMicroOperation : Obligations.SequencerWordSelectsTheMicroOperation := by
  intro p t w hw
  rw [seqWord_eq_append hw, decodeSeq_append]
  constructor
  · obtain rfl | rfl | rfl | rfl | rfl | rfl | rfl | rfl := phaseCode_cases p <;>
      simp [decodeSeqFields, tInRange_iff]
  · rintro s rfl rfl
    exact ⟨fun _ => step_micro, fun h => ⟨State.not_inv_of_step_refused (step_noMicroOp h), step_noMicroOp h⟩⟩

/-- The group `g` is the twenty indexes from `20 g` on (R84). -/
theorem group_eq_of_bounds {t : Fin 80} {g : Fin 4} (hlo : 20 * g.val ≤ t.val) (hhi : t.val < 20 * g.val + 20) :
    group t = g :=
  Fin.ext (by simp only [group]; omega)

/-- Settles O34: each clause's bounds fix the group, at which the two selects answer their row. -/
theorem groupSelectsFunctionAndConstant : Obligations.GroupSelectsFunctionAndConstant := by
  intro t x y z
  refine ⟨rfl, fun h => ?_, fun h => ?_, fun h => ?_, fun h => ?_⟩
  · rw [group_eq_of_bounds (g := 0) (Nat.zero_le _) (Nat.lt_succ_of_le h)]
    exact ⟨rfl, rfl⟩
  · rw [group_eq_of_bounds (g := 1) h.1 (Nat.lt_succ_of_le h.2)]
    exact ⟨rfl, rfl⟩
  · rw [group_eq_of_bounds (g := 2) h.1 (Nat.lt_succ_of_le h.2)]
    exact ⟨rfl, rfl⟩
  · rw [group_eq_of_bounds (g := 3) h t.isLt]
    exact ⟨rfl, rfl⟩

end Sys2Proof.Machine
end

section
/-! PROOFS. The datapath family (40_datapath_functions R87, R88): the numbers the adders and the byte assembler answer. -/

namespace Sys2Proof.Machine

/-- Reducing modulo 2^32 at each addition or once at the end gives the same number (R87). -/
theorem add5_toNat (p q r s u : Word) :
    (add5 p q r s u).toNat = (p.toNat + q.toNat + r.toNat + s.toNat + u.toNat) % 2 ^ 32 := by
  simp only [add5, BitVec.toNat_add, Nat.mod_add_mod]

/-- Settles O35: the model's adders are the wrapping additions of `BitVec`. -/
theorem addersWrapModuloTwoPow32 : Obligations.AddersWrapModuloTwoPow32 :=
  fun p q r s u => ⟨BitVec.toNat_add p q, add5_toNat p q r s u⟩

/-- The two parts do not overlap, so the OR that appends them is a sum. -/
theorem toNat_append_eq_add {m n : Nat} (x : BitVec m) (y : BitVec n) :
    (x ++ y).toNat = x.toNat * 2 ^ n + y.toNat := by
  rw [BitVec.toNat_append, ← Nat.shiftLeft_add_eq_or_of_lt y.isLt, Nat.shiftLeft_eq]

/-- The assembler's shifts and ORs put its bytes one after the other, byte 0 at the top (R88). -/
theorem be32_eq_append (b0 b1 b2 b3 : Byte) : be32 b0 b1 b2 b3 = b0 ++ b1 ++ b2 ++ b3 := by
  rw [be32, ← BitVec.setWidth_eq (b0 ++ b1 ++ b2 ++ b3),
    BitVec.setWidth_append_append_append_eq_shiftLeft_setWidth_or]

/-- Settles O36: each byte appended below multiplies the number so far by 2^8. -/
theorem byteAssemblerIsBigEndian : Obligations.ByteAssemblerIsBigEndian := by
  intro b0 b1 b2 b3
  rw [be32_eq_append]
  simp only [toNat_append_eq_add]
  omega

end Sys2Proof.Machine
end

section
/-! PROOFS. The schedule family (41_schedule R100, R101): the state PARSE and SCHED answer, and the step that performs them. -/

namespace Sys2Proof.Machine

/-- The schedule `w` stays a variable here, as in `step_parse`. -/
theorem exec_parse_next (s : State) :
    ∃ w, s.Parsed w ∧ exec .parse s = .next (((s.setW w).clearBV).enter .sched 16) :=
  ⟨s.parsedW, s.parsedW_parsed, rfl⟩

theorem exec_sched_next {t : BitVec 7} {k : Fin 80} (ht : t.toNat = k.val) (hk : 16 ≤ k.val) (s : State) :
    exec (.sched t) s = .next ((s.setW (s.W.set k.val (scheduleWord s.W k))).advance k .sched .seed) := by
  simp only [exec, execSched, schedIndex_eq_some.2 ⟨ht, hk⟩]

theorem step_eq_exec_parse {s : State} (hp : s.phase = .parse) (ht : s.t = 0) : step s = exec .parse s :=
  step_micro (by simp [hp, ht, Phase.code, decodeSeqFields])

/-- The words PARSE writes, over the bytes of the buffer (R100, 20_memory R41). -/
theorem State.Parsed.be32_read {s : State} {w : Vector Word 80} (h : s.Parsed w) (k : Fin 80) (hk : k.val < 16) :
    w[k] = be32 (s.B.read (4 * k.val)) (s.B.read (4 * k.val + 1)) (s.B.read (4 * k.val + 2))
      (s.B.read (4 * k.val + 3)) :=
  h.low k hk

/-- Settles O22: PARSE's schedule holds the block's words below 16 and the old words from 16 on, and the engine performs PARSE
in (PARSE, 0). -/
theorem parseCopiesTheBlockIntoTheSchedule : Obligations.ParseCopiesTheBlockIntoTheSchedule := by
  intro s
  obtain ⟨w, hw, he⟩ := exec_parse_next s
  exact ⟨_, he, hw.be32_read, hw.high, rfl, fun hp ht => (step_eq_exec_parse hp ht).trans he⟩

/-- Settles O23: `t` is an index of SCHED's row, so SCHED writes the word of its four taps and advances from `t`. -/
theorem schedGeneratesOneScheduleWord : Obligations.SchedGeneratesOneScheduleWord := by
  intro s t k ht hk u
  have hu : (s.setW (s.W.set k.val (scheduleWord s.W k))).advance k .sched .seed = u := by
    rw [State.advance_eq, ofNat_succ_eq ht]
    rfl
  constructor
  · rw [exec_sched_next ht hk, hu]
  · rintro hp rfl
    rw [step_sched hp k hk ht, hu]

end Sys2Proof.Machine
end

section
/-! PROOFS. The round family (42_round R110 to R116): the states SEED, the four ROUND micro-operations and FOLD answer, and the
step that performs them. -/

namespace Sys2Proof.Machine

/-- Settles O24: SEED loads the registers and enters ROUND, and the engine performs it in (SEED, 0). -/
theorem seedCopiesTheStateIntoTheRegisters : Obligations.SeedCopiesTheStateIntoTheRegisters :=
  fun _ => ⟨rfl, step_seed⟩

/-- The round step written out over the old registers, with `t` advanced from the index the operation carries (R111). -/
theorem State.roundStep_eq {t : BitVec 7} {k : Fin 80} (ht : t.toNat = k.val) (g : Fin 4) (s : State) :
    s.roundStep g k = { s with
      a := rotl s.a 5 + fsel g s.b s.c s.d + s.e + ksel g + s.W[k], b := s.a, c := rotl s.b 30, d := s.c, e := s.d,
      phase := if k.val = 79 then .fold else .round, t := if k.val = 79 then 0 else t + 1 } := by
  rw [State.roundStep, State.advance_eq, ofNat_succ_eq ht]
  rfl

/-- An index of group `g` runs the round step of `g`: as the meaning of the group's micro-operation, and as the step in
(ROUND, t). -/
theorem roundAt_and_step_round {t : BitVec 7} {k : Fin 80} {g : Fin 4} (ht : t.toNat = k.val) (hlo : 20 * g.val ≤ k.val)
    (hhi : k.val < 20 * g.val + 20) (s : State) :
    roundAt g t s = .next (s.roundStep g k) ∧
      (s.phase = .round → s.t = t → step s = .next (s.roundStep g k)) := by
  have hg : group k = g := group_eq_of_bounds hlo hhi
  constructor
  · exact roundAt_eq ht (congrArg Fin.val hg) s
  · rintro hp rfl
    rw [step_round hp k ht, hg]

/-- Settles O25: each clause's bounds fix the group, whose function and constant the written-out round step then takes. -/
theorem roundStepOfEachGroup : Obligations.RoundStepOfEachGroup := by
  intro s t k ht after runs
  have runs_group (g : Fin 4) (hlo : 20 * g.val ≤ k.val) (hhi : k.val < 20 * g.val + 20) :=
    State.roundStep_eq ht g s ▸ roundAt_and_step_round ht hlo hhi s
  refine ⟨fun h => ?_, fun h => ?_, fun h => ?_, fun h => ?_⟩
  · exact runs_group 0 (Nat.zero_le _) (Nat.lt_succ_of_le h)
  · exact runs_group 1 h.1 (Nat.lt_succ_of_le h.2)
  · exact runs_group 2 h.1 (Nat.lt_succ_of_le h.2)
  · exact runs_group 3 h k.isLt

/-- Each word of FOLD is the sum of one state word and one register (R116). -/
theorem State.foldedH_getElem (s : State) (i : Fin 5) :
    s.foldedH[i] = s.H[i] + (#v[s.a, s.b, s.c, s.d, s.e])[i] := by
  fin_cases i <;> rfl

/-- Settles O26: FOLD's words are sums of single words, so each is reduced modulo 2^32 by itself. -/
theorem foldAddsTheRegistersIntoTheState : Obligations.FoldAddsTheRegistersIntoTheState := by
  intro s u
  refine ⟨rfl, step_fold, fun i => ?_⟩
  calc u.H[i].toNat = (s.H[i] + (#v[s.a, s.b, s.c, s.d, s.e])[i]).toNat := congrArg BitVec.toNat (s.foldedH_getElem i)
    _ = (s.H[i].toNat + (#v[s.a, s.b, s.c, s.d, s.e])[i].toNat) % 2 ^ 32 := BitVec.toNat_add _ _

end Sys2Proof.Machine
end

section
/-! PROOFS. The driver family (43_driver R131): which command leaves IDLE, the micro-operation of each busy phase, and the
row-by-row transitions of `(phase, t)`. -/

namespace Sys2Proof.Machine

/-- START without operands has one word (30_encoding R61, R64). -/
theorem decodeCmd_eq_start_iff {w : CmdWord} : decodeCmd w = .start 0 0 ↔ w = 0x50000000000 := by
  constructor
  · intro h
    have fields : cmdOp w = 5 ∧ cmdIdx w = 0 ∧ cmdData w = 0 := by
      unfold decodeCmd at h
      split_ifs at h with _ _ _ _ _ hop
      obtain ⟨hidx, hdata⟩ := Instr.start.inj h
      exact ⟨hop, hidx, hdata⟩
    obtain ⟨hop, hidx, hdata⟩ := fields
    rw [← cmd_fields w, hop, hidx, hdata]
    rfl
  · rintro rfl
    decide

/-- A START whose checks all pass is performed (44 R156). -/
theorem exec_start_ready {s : State} (hH : s.HV = fullHV) (hB : s.BV = fullBV) :
    exec (.start 0 0) s = .next ((s.enter .parse 0).answered 0) := by
  simp [exec, execStart, noOperands, State.allValidH, State.allValidB, hH, hB]

/-- The one way out of IDLE (R131): the command on the port is START and its checks pass. -/
def State.StartAccepted (s : State) : Prop :=
  ∃ rest, s.host = 0x50000000000 :: rest ∧ s.HV = fullHV ∧ s.BV = fullBV

theorem State.startAccepted_cons {s : State} {w : CmdWord} {rest : List CmdWord} (hh : s.host = w :: rest) :
    s.StartAccepted ↔ decodeCmd w = .start 0 0 ∧ s.HV = fullHV ∧ s.BV = fullBV := by
  rw [decodeCmd_eq_start_iff]
  simp [State.StartAccepted, hh]

theorem State.not_startAccepted_nil {s : State} (hh : s.host = []) : ¬ s.StartAccepted := by
  simp [State.StartAccepted, hh]

/-- A command that is not an accepted START leaves the sequencer where it is. -/
theorem command_keeps_seq {w : CmdWord} {s u : State} (h : exec (decodeCmd w) s = .next u)
    (hstart : ¬ (decodeCmd w = .start 0 0 ∧ s.HV = fullHV ∧ s.BV = fullBV)) : u.phase = s.phase ∧ u.t = s.t := by
  obtain ⟨_, -, he⟩ | ⟨-, he⟩ | ⟨_, _, _, -, -, he⟩ | ⟨_, _, -, -, -, he⟩ | ⟨_, _, _, -, -, -, he⟩ |
    ⟨_, _, _, -, -, he⟩ | ⟨hd, hH, hB, -⟩ := command_cases w s
  case inr.inr.inr.inr.inr.inr => exact absurd ⟨hd, hH, hB⟩ hstart
  all_goals
    cases h.symm.trans he
    exact ⟨rfl, rfl⟩

/-- The rows of IDLE for a command on the port (R131). -/
theorem command_row {w : CmdWord} {rest : List CmdWord} {s u : State} (hp : s.phase = .idle) (ht : s.t = 0)
    (hh : s.host = w :: rest) (h : exec (decodeCmd w) { s with host := rest } = .next u) :
    u.t = 0 ∧ (s.StartAccepted → u.phase = .parse) ∧ (¬ s.StartAccepted → u.phase = .idle) := by
  rw [State.startAccepted_cons hh]
  by_cases hs : decodeCmd w = .start 0 0 ∧ s.HV = fullHV ∧ s.BV = fullBV
  · obtain ⟨hd, hH, hB⟩ := hs
    rw [hd, exec_start_ready (s := { s with host := rest }) hH hB] at h
    cases h
    exact ⟨rfl, fun _ => rfl, fun hn => absurd ⟨hd, hH, hB⟩ hn⟩
  · obtain ⟨hup, hut⟩ := command_keeps_seq h hs
    exact ⟨hut.trans ht, fun hy => absurd hy hs, fun _ => hup.trans hp⟩

theorem step_eq_exec_sched {s : State} {k : Fin 80} (hp : s.phase = .sched) (hk : 16 ≤ k.val) (ht : s.t.toNat = k.val) :
    step s = exec (.sched s.t) s :=
  (step_sched hp k hk ht).trans (exec_sched_next ht hk s).symm

/-- The ROUND micro-operation at index `t`, by `t div 20` (R131). -/
def roundMicroOp (t : BitVec 7) : Instr :=
  if t.toNat / 20 = 0 then .roundCh t else if t.toNat / 20 = 1 then .roundPar1 t
    else if t.toNat / 20 = 2 then .roundMaj t else .roundPar3 t

theorem exec_roundMicroOp {t : BitVec 7} {k : Fin 80} (ht : t.toNat = k.val) (s : State) :
    exec (roundMicroOp t) s = .next (s.roundStep (group k) k) := by
  have run : ∀ g : Fin 4, t.toNat / 20 = g.val → roundAt g t s = .next (s.roundStep (group k) k) := by
    intro g hg
    rw [ht] at hg
    rw [roundAt_eq ht hg, show group k = g from Fin.ext hg]
  unfold roundMicroOp
  split_ifs with h0 h1 h2
  · exact run 0 h0
  · exact run 1 h1
  · exact run 2 h2
  · exact run 3 (by show t.toNat / 20 = 3; omega)

theorem step_eq_exec_round {s : State} {k : Fin 80} (hp : s.phase = .round) (ht : s.t.toNat = k.val) :
    step s = exec (roundMicroOp s.t) s :=
  (step_round hp k ht).trans (exec_roundMicroOp ht s).symm

/-- The two rows of a loop: inside it `t` advances, at 79 the phase is left (R131). -/
theorem State.advance_rows {t : BitVec 7} {k : Fin 80} (ht : t.toNat = k.val) (s : State) (stay leave : Phase) :
    (t.toNat ≤ 78 → (s.advance k stay leave).phase = stay ∧ (s.advance k stay leave).t = t + 1) ∧
    (t.toNat = 79 → (s.advance k stay leave).phase = leave ∧ (s.advance k stay leave).t = 0) := by
  rw [State.advance_eq, ofNat_succ_eq ht, ht]
  constructor
  · intro hk
    have hne : k.val ≠ 79 := by omega
    exact ⟨if_neg hne, if_neg hne⟩
  · intro hk
    exact ⟨if_pos hk, if_pos hk⟩

/-- Settles O43: each thing a step can do is one row of the table, the phase ruling out the other rows; in the invariant the
step has a next state. -/
theorem sequencerMovesAsItsTransitionTable : Obligations.SequencerMovesAsItsTransitionTable := by
  refine ⟨fun s u h => ?_, fun s hs _ => hs.exists_step⟩
  obtain ⟨hp, ht, hh, rfl⟩ | ⟨w, rest, hp, ht, hh, he⟩ | ⟨w, hp, ht, -, rfl⟩ | ⟨k, hp, ht, hk, rfl⟩ | ⟨hp, ht, rfl⟩ |
    ⟨k, hp, ht, rfl⟩ | ⟨hp, ht, rfl⟩ := step_cases h <;>
    simp only [hp, reduceCtorEq, false_implies, true_implies, true_and, and_true]
  · exact ⟨ht, ht, fun hs => absurd hs (State.not_startAccepted_nil hh), fun _ => trivial⟩
  · exact ⟨ht, command_row hp ht hh he⟩
  · exact ⟨ht, step_eq_exec_parse hp ht, rfl, rfl⟩
  · exact ⟨ht ▸ hk, ht ▸ Nat.le_of_lt_succ k.isLt, step_eq_exec_sched hp hk ht, State.advance_rows ht _ _ _⟩
  · exact ⟨ht, step_seed hp ht, rfl, rfl⟩
  · exact ⟨ht ▸ Nat.le_of_lt_succ k.isLt, step_eq_exec_round hp ht, State.advance_rows ht _ _ _⟩
  · exact ⟨ht, step_fold hp ht, rfl, rfl⟩

end Sys2Proof.Machine
end

section
/-! PROOFS. The host command family (44_host_commands R151 to R157): what each command row answers, performed or faulting. -/

namespace Sys2Proof.Machine

theorem noOperands_eq_false_iff {idx : BitVec 8} {data : Word} : noOperands idx data = false ↔ idx ≠ 0 ∨ data ≠ 0 := by
  rw [Bool.eq_false_iff, Ne, noOperands_iff, not_and_or]

section

variable {idx : BitVec 8} {data : Word}

theorem exec_nop (s : State) : exec (.nop 0 0) s = .next (s.answered 0) := rfl

theorem exec_nop_badOperand (h : idx ≠ 0 ∨ data ≠ 0) (s : State) :
    exec (.nop idx data) s = .next (s.faulted .badOperand) := by
  simp [exec, execNop, noOperands_eq_false_iff.2 h]

theorem exec_wrh {i : Fin 5} (h : idx.toNat = i.val) (s : State) :
    exec (.wrh idx data) s = .next ((s.writeH i data).answered 0) := by
  simp [exec, execWrh, stateIndex_eq_some.2 h]

theorem exec_wrh_badOperand (h : 5 ≤ idx.toNat) (s : State) :
    exec (.wrh idx data) s = .next (s.faulted .badOperand) := by
  simp [exec, execWrh, stateIndex_eq_none.2 h]

theorem exec_rdh {s : State} {i : Fin 5} (h : idx.toNat = i.val) (hv : s.validH i = true) :
    exec (.rdh idx 0) s = .next (s.answered (s.readH i)) := by
  simp only [exec, execRdh, readIndex_eq_some.2 ⟨h, rfl⟩, hv, if_true, done_eq]

theorem exec_rdh_stateUninit {s : State} {i : Fin 5} (h : idx.toNat = i.val) (hv : s.validH i = false) :
    exec (.rdh idx 0) s = .next (s.faulted .stateUninit) := by
  simp only [exec, execRdh, readIndex_eq_some.2 ⟨h, rfl⟩, hv, Bool.false_eq_true, if_false, raiseFault_eq]

theorem exec_rdh_badOperand (h : 5 ≤ idx.toNat ∨ data ≠ 0) (s : State) :
    exec (.rdh idx data) s = .next (s.faulted .badOperand) := by
  simp [exec, execRdh, readIndex_eq_none.2 h]

theorem exec_wrb {n : Fin 64} (h : idx.toNat = n.val) (hd : data.toNat ≤ 0xFF) (s : State) :
    exec (.wrb idx data) s = .next ((s.writeByte n (data.setWidth 8)).answered 0) := by
  simp [exec, execWrb, byteOperands_eq_some.2 ⟨h, hd, rfl⟩]

theorem exec_wrb_badOperand (h : 64 ≤ idx.toNat ∨ 0xFF < data.toNat) (s : State) :
    exec (.wrb idx data) s = .next (s.faulted .badOperand) := by
  simp [exec, execWrb, byteOperands_eq_none.2 h]

theorem exec_wrw {j : Fin 16} (h : idx.toNat = j.val) (s : State) :
    exec (.wrw idx data) s = .next ((s.writeWord j data).answered 0) := by
  simp [exec, execWrw, wordIndex_eq_some.2 h]

theorem exec_wrw_badOperand (h : 16 ≤ idx.toNat) (s : State) :
    exec (.wrw idx data) s = .next (s.faulted .badOperand) := by
  simp [exec, execWrw, wordIndex_eq_none.2 h]

theorem exec_start_blockIncomplete {s : State} (hH : s.HV = fullHV) (hB : s.BV ≠ fullBV) :
    exec (.start 0 0) s = .next (s.faulted .blockIncomplete) := by
  simp [exec, execStart, noOperands, State.allValidH, State.allValidB, hH, hB]

theorem exec_start_stateUninit {s : State} (hH : s.HV ≠ fullHV) :
    exec (.start 0 0) s = .next (s.faulted .stateUninit) := by
  simp [exec, execStart, noOperands, State.allValidH, hH]

theorem exec_start_badOperand (h : idx ≠ 0 ∨ data ≠ 0) (s : State) :
    exec (.start idx data) s = .next (s.faulted .badOperand) := by
  simp [exec, execStart, noOperands_eq_false_iff.2 h]

theorem exec_rsvd67 (op : BitVec 4) (s : State) : exec (.rsvd67 op idx data) s = .next (s.faulted .illegalOp) := rfl

theorem exec_rsvd8F (op : BitVec 4) (s : State) : exec (.rsvd8F op idx data) s = .next (s.faulted .illegalOp) := rfl

end

/-- Settles O15: the two outcomes of NOP. -/
theorem nopAnswersAndChangesNothing : Obligations.NopAnswersAndChangesNothing :=
  fun s => ⟨exec_nop s, fun _ _ h => exec_nop_badOperand h s⟩

/-- Settles O16: the two outcomes of WRH. -/
theorem wrhWritesOneStateWord : Obligations.WrhWritesOneStateWord :=
  fun s _ => ⟨fun _ _ h => exec_wrh h s, fun _ h => exec_wrh_badOperand h s⟩

/-- Settles O17: the three outcomes of RDH. -/
theorem rdhAnswersOneStateWord : Obligations.RdhAnswersOneStateWord :=
  fun s _ => ⟨fun _ h hv => exec_rdh h hv, fun _ h hv => exec_rdh_stateUninit h hv, fun _ h => exec_rdh_badOperand h s⟩

/-- Settles O18: WRB stores one byte of a canonical buffer, and a write leaves every other address alone. -/
theorem wrbWritesOneBlockByte : Obligations.WrbWritesOneBlockByte := by
  intro s idx data hwf
  refine ⟨fun n hn hd => ⟨_, exec_wrb hn hd s, ?_, fun a ha => ?_, rfl⟩, fun h => exec_wrb_badOperand h s⟩
  · rw [State.answered_readByte, State.readByte_writeByte_same s n _ hwf, BitVec.setWidth_eq_extractLsb' (by decide)]
  · exact Memory.read_write_other s.B n.val _ ha

/-- WRW sets the valid bits of the four bytes of its word. -/
theorem State.writeWord_validB (s : State) (j : Fin 16) (v : Word) (n : Fin 64) :
    (s.writeWord j v).validB n = (s.validB n || decide (n.val / 4 = j.val)) := by
  have hword : n.val / 4 = j.val ↔
      byteOfWord j 0 = n ∨ byteOfWord j 1 = n ∨ byteOfWord j 2 = n ∨ byteOfWord j 3 = n := by
    simp only [byteOfWord, Fin.ext_iff]
    omega
  simp only [State.writeWord, State.writeByte_validB, hword, Bool.decide_or, Bool.or_assoc]

/-- The word WRW stores is read back (20_memory R41, R43). -/
theorem State.readWord_writeWord (s : State) (j : Fin 16) (v : Word) (h : s.B.wf = true) :
    (s.writeWord j v).readWord j = v := by
  obtain ⟨h0, h1, h2, h3⟩ := State.readByte_writeWord s j v h
  rw [State.readWord, h0, h1, h2, h3, be32_extract]

/-- Where a block word reads as `v`, PARSE copies `v` into the schedule (41 R100). -/
theorem parse_getElem_of_readWord {u p : State} {j : Fin 16} {k : Fin 80} {v : Word} (h : u.readWord j = v)
    (hp : exec .parse u = .next p) (hk : k.val = j.val) : p.W[k] = v := by
  obtain ⟨w, hw, he⟩ := exec_parse_next u
  cases hp.symm.trans he
  calc w[k] = u.readWord ⟨k.val, hk ▸ j.isLt⟩ := hw.low k (hk ▸ j.isLt)
    _ = u.readWord j := congrArg u.readWord (Fin.ext hk)
    _ = v := h

/-- Settles O19: WRW stores the four bytes of its value in a canonical buffer and nothing else, and they are one word again. -/
theorem wrwWritesFourBlockBytesBigEndian : Obligations.WrwWritesFourBlockBytesBigEndian := by
  intro s idx v hwf
  refine ⟨fun j hj => ?_, fun h => exec_wrw_badOperand h s⟩
  obtain ⟨h0, h1, h2, h3⟩ := State.readByte_writeWord s j v hwf
  exact ⟨_, exec_wrw hj s, h0, h1, h2, h3, fun a => State.read_writeWord_other s j v, State.writeWord_validB s j v,
    fun p k => parse_getElem_of_readWord (State.readWord_writeWord s j v hwf), rfl⟩

/-- Settles O20: the four outcomes of START. -/
theorem startEntersParse : Obligations.StartEntersParse :=
  fun s => ⟨exec_start_ready, exec_start_blockIncomplete, exec_start_stateUninit, fun _ _ h => exec_start_badOperand h s⟩

end Sys2Proof.Machine
end

section
/-! PROOFS. The order of checks of an accepted command word (44 R158): the word's fields as numbers, one lemma for each check
that decides, and one for a command that passes them all. -/

namespace Sys2Proof.Machine

theorem cmdOp_toNat (w : CmdWord) : (cmdOp w).toNat = w.toNat / 2 ^ 40 := by
  rw [cmdOp, BitVec.extractLsb'_toNat, Nat.shiftRight_eq_div_pow]
  omega

theorem cmdIdx_toNat (w : CmdWord) : (cmdIdx w).toNat = w.toNat / 2 ^ 32 % 2 ^ 8 := by
  rw [cmdIdx, BitVec.extractLsb'_toNat, Nat.shiftRight_eq_div_pow]

theorem cmdData_toNat (w : CmdWord) : (cmdData w).toNat = w.toNat % 2 ^ 32 := by
  rw [cmdData, BitVec.extractLsb'_toNat, Nat.shiftRight_zero]

/-- The opcode map by the number of the `op` field (30_encoding R62). -/
theorem decodeCmd_cases (w : CmdWord) :
    ((cmdOp w).toNat = 0 ∧ decodeCmd w = .nop (cmdIdx w) (cmdData w)) ∨
    ((cmdOp w).toNat = 1 ∧ decodeCmd w = .wrh (cmdIdx w) (cmdData w)) ∨
    ((cmdOp w).toNat = 2 ∧ decodeCmd w = .rdh (cmdIdx w) (cmdData w)) ∨
    ((cmdOp w).toNat = 3 ∧ decodeCmd w = .wrb (cmdIdx w) (cmdData w)) ∨
    ((cmdOp w).toNat = 4 ∧ decodeCmd w = .wrw (cmdIdx w) (cmdData w)) ∨
    ((cmdOp w).toNat = 5 ∧ decodeCmd w = .start (cmdIdx w) (cmdData w)) ∨
    (6 ≤ (cmdOp w).toNat ∧ (decodeCmd w = .rsvd67 (cmdOp w) (cmdIdx w) (cmdData w) ∨
      decodeCmd w = .rsvd8F (cmdOp w) (cmdIdx w) (cmdData w))) := by
  simp only [decodeCmd, BitVec.toNat_eq, BitVec.ofNat_eq_ofNat, BitVec.reduceToNat]
  split_ifs with h0 h1 h2 h3 h4 h5 h67
  · exact .inl ⟨h0, rfl⟩
  · exact .inr (.inl ⟨h1, rfl⟩)
  · exact .inr (.inr (.inl ⟨h2, rfl⟩))
  · exact .inr (.inr (.inr (.inl ⟨h3, rfl⟩)))
  · exact .inr (.inr (.inr (.inr (.inl ⟨h4, rfl⟩))))
  · exact .inr (.inr (.inr (.inr (.inr (.inl ⟨h5, rfl⟩)))))
  · exact .inr (.inr (.inr (.inr (.inr (.inr ⟨by omega, .inl rfl⟩)))))
  · exact .inr (.inr (.inr (.inr (.inr (.inr ⟨by omega, .inr rfl⟩)))))

theorem toNat_eq_zero_iff {n : Nat} {x : BitVec n} : x.toNat = 0 ↔ x = 0 := by
  simp [BitVec.toNat_eq]

/-! The rows of R64, opcode by opcode. -/

section

variable {idx data : Nat}

theorem operandsLegal_nop : operandsLegal 0 idx data ↔ idx = 0 ∧ data = 0 := by
  simp [operandsLegal]

theorem operandsLegal_wrh : operandsLegal 1 idx data ↔ idx ≤ 4 := by
  simp [operandsLegal]

theorem operandsLegal_rdh : operandsLegal 2 idx data ↔ idx ≤ 4 ∧ data = 0 := by
  simp [operandsLegal]

theorem operandsLegal_wrb : operandsLegal 3 idx data ↔ idx ≤ 63 ∧ data ≤ 0xFF := by
  simp [operandsLegal]

theorem operandsLegal_wrw : operandsLegal 4 idx data ↔ idx ≤ 15 := by
  simp [operandsLegal]

theorem operandsLegal_start : operandsLegal 5 idx data ↔ idx = 0 ∧ data = 0 := by
  simp [operandsLegal]

end

/-- The word's operands obey their row of R64. -/
abbrev OperandsLegal (w : CmdWord) : Prop := operandsLegal (cmdOp w).toNat (cmdIdx w).toNat (cmdData w).toNat

section

variable {w : CmdWord}

/-- R158, check 1. -/
theorem exec_illegalOp (h : 6 ≤ (cmdOp w).toNat) (s : State) :
    exec (decodeCmd w) s = .next (s.faulted .illegalOp) := by
  obtain ⟨hop, -⟩ | ⟨hop, -⟩ | ⟨hop, -⟩ | ⟨hop, -⟩ | ⟨hop, -⟩ | ⟨hop, -⟩ | ⟨-, hd | hd⟩ := decodeCmd_cases w
  case inr.inr.inr.inr.inr.inr.inl => rw [hd, exec_rsvd67]
  case inr.inr.inr.inr.inr.inr.inr => rw [hd, exec_rsvd8F]
  all_goals omega

/-- R158, check 2: each row's meaning refuses just the operands R64 excludes. -/
theorem exec_badOperand (hop : ¬ 6 ≤ (cmdOp w).toNat) (h : ¬ OperandsLegal w) (s : State) :
    exec (decodeCmd w) s = .next (s.faulted .badOperand) := by
  obtain ⟨e, hd⟩ | ⟨e, hd⟩ | ⟨e, hd⟩ | ⟨e, hd⟩ | ⟨e, hd⟩ | ⟨e, hd⟩ | ⟨hge, -⟩ := decodeCmd_cases w
  case inr.inr.inr.inr.inr.inr => exact absurd hge hop
  all_goals
    rw [OperandsLegal, e] at h
    rw [hd]
  · rw [operandsLegal_nop, toNat_eq_zero_iff, toNat_eq_zero_iff, not_and_or] at h
    exact exec_nop_badOperand h s
  · rw [operandsLegal_wrh, Nat.not_le] at h
    exact exec_wrh_badOperand h s
  · rw [operandsLegal_rdh, toNat_eq_zero_iff, not_and_or, Nat.not_le] at h
    exact exec_rdh_badOperand h s
  · rw [operandsLegal_wrb, not_and_or, Nat.not_le, Nat.not_le] at h
    exact exec_wrb_badOperand h s
  · rw [operandsLegal_wrw, Nat.not_le] at h
    exact exec_wrw_badOperand h s
  · rw [operandsLegal_start, toNat_eq_zero_iff, toNat_eq_zero_iff, not_and_or] at h
    exact exec_start_badOperand h s

theorem decodeCmd_rdh_of_legal (e : (cmdOp w).toNat = 2) (h : OperandsLegal w) :
    decodeCmd w = .rdh (cmdIdx w) 0 ∧ (cmdIdx w).toNat < 5 := by
  rw [OperandsLegal, e, operandsLegal_rdh, toNat_eq_zero_iff] at h
  obtain ⟨hidx, hdata⟩ := h
  have hd : decodeCmd w = .rdh (cmdIdx w) (cmdData w) := by simp [decodeCmd, BitVec.toNat_eq, e]
  exact ⟨by rw [hd, hdata], Nat.lt_succ_of_le hidx⟩

theorem decodeCmd_start_of_legal (e : (cmdOp w).toNat = 5) (h : OperandsLegal w) : decodeCmd w = .start 0 0 := by
  rw [OperandsLegal, e, operandsLegal_start, toNat_eq_zero_iff, toNat_eq_zero_iff] at h
  obtain ⟨hidx, hdata⟩ := h
  have hd : decodeCmd w = .start (cmdIdx w) (cmdData w) := by simp [decodeCmd, BitVec.toNat_eq, e]
  rw [hd, hidx, hdata]

/-- R158, check 3, for RDH. -/
theorem exec_rdh_word_stateUninit {s : State} (e : (cmdOp w).toNat = 2) (h : OperandsLegal w)
    (hv : s.HV.getLsbD (cmdIdx w).toNat = false) : exec (decodeCmd w) s = .next (s.faulted .stateUninit) := by
  obtain ⟨hd, hlt⟩ := decodeCmd_rdh_of_legal e h
  rw [hd, exec_rdh_stateUninit (i := ⟨_, hlt⟩) rfl hv]

/-- R158, step 5: a command that no check stops is performed, which gives its response and leaves `FAULT`. -/
theorem exec_performed {s : State} (hop : ¬ 6 ≤ (cmdOp w).toNat) (h : OperandsLegal w)
    (hv : ¬ ((cmdOp w).toNat = 2 ∧ s.HV.getLsbD (cmdIdx w).toNat = false))
    (hH : ¬ ((cmdOp w).toNat = 5 ∧ s.HV ≠ fullHV)) (hB : ¬ ((cmdOp w).toNat = 5 ∧ s.BV ≠ fullBV)) :
    ∃ (u : State) (rdata : Word), exec (decodeCmd w) s = .next u ∧ u.fault = s.fault ∧
      u.responses = s.responses ++ [(0 : BitVec 3) ++ rdata] := by
  obtain ⟨e, hd⟩ | ⟨e, hd⟩ | ⟨e, -⟩ | ⟨e, hd⟩ | ⟨e, hd⟩ | ⟨e, -⟩ | ⟨hge, -⟩ := decodeCmd_cases w
  · rw [OperandsLegal, e, operandsLegal_nop, toNat_eq_zero_iff, toNat_eq_zero_iff] at h
    obtain ⟨hidx, hdata⟩ := h
    rw [hd, hidx, hdata]
    exact ⟨_, _, exec_nop s, rfl, rfl⟩
  · rw [OperandsLegal, e, operandsLegal_wrh] at h
    rw [hd]
    exact ⟨_, _, exec_wrh (i := ⟨_, Nat.lt_succ_of_le h⟩) rfl s, rfl, rfl⟩
  · obtain ⟨hd, hlt⟩ := decodeCmd_rdh_of_legal e h
    rw [hd]
    exact ⟨_, _, exec_rdh (i := ⟨_, hlt⟩) rfl (by simpa [State.validH, e] using hv), rfl, rfl⟩
  · rw [OperandsLegal, e, operandsLegal_wrb] at h
    obtain ⟨hidx, hdata⟩ := h
    rw [hd]
    exact ⟨_, _, exec_wrb (n := ⟨_, Nat.lt_succ_of_le hidx⟩) rfl hdata s, rfl, rfl⟩
  · rw [OperandsLegal, e, operandsLegal_wrw] at h
    rw [hd]
    exact ⟨_, _, exec_wrw (j := ⟨_, Nat.lt_succ_of_le h⟩) rfl s, rfl, rfl⟩
  · rw [decodeCmd_start_of_legal e h]
    exact ⟨_, _, exec_start_ready (by simpa [e] using hH) (by simpa [e] using hB), rfl, rfl⟩
  · exact absurd hge hop

end

/-- Settles O21: both reserved rows raise ILLEGAL_OP, and a word with `op` 6 or more decodes to one of them. -/
theorem reservedOpcodesRaiseIllegalOp : Obligations.ReservedOpcodesRaiseIllegalOp := by
  refine ⟨fun s op _ _ => ⟨exec_rsvd67 op s, exec_rsvd8F op s⟩, fun s w rest hp ht hh hop => ?_⟩
  rw [step_command hp ht hh, exec_illegalOp (by rwa [cmdOp_toNat])]

/-- Settles O9: where a check of R158 stops the word its fault entry is the step, and where none does the command is
performed. -/
theorem checksOfACommandDecideInOrder : Obligations.ChecksOfACommandDecideInOrder := by
  intro s w rest hp ht hh
  rw [step_command hp ht hh, ← cmdOp_toNat, ← cmdIdx_toNat, ← cmdData_toNat]
  intro op idx data p
  split_ifs with hop hlegal hv hH hB
  · exact exec_illegalOp hop p
  · exact exec_rdh_word_stateUninit hv.1 hlegal hv.2
  · rw [decodeCmd_start_of_legal hH.1 hlegal]
    exact exec_start_stateUninit hH.2
  · rw [decodeCmd_start_of_legal hB.1 hlegal]
    exact exec_start_blockIncomplete (not_not.1 fun hne => hH ⟨hB.1, hne⟩) hB.2
  · obtain ⟨u, rdata, he, hf, hr⟩ := exec_performed (s := p) hop hlegal hv hH hB
    exact ⟨u, rdata, he, hf, hr, he⟩
  · exact exec_badOperand hop hlegal p

end Sys2Proof.Machine
end

section
/-! PROOFS. Acceptance (44 R150): what a busy step leaves of the host's side, how many steps a busy engine takes to be idle
again, and the one step that accepts a command. -/

namespace Sys2Proof.Machine

/-! ## While busy -/

/-- A step outside IDLE leaves the host's commands waiting and answers nothing. -/
theorem busy_step_keeps_port {s u : State} (hs : s.phase ≠ .idle) (h : step s = .next u) :
    u.host = s.host ∧ u.responses = s.responses := by
  obtain ⟨hp, -⟩ | ⟨_, _, hp, -⟩ | ⟨w, -, -, -, rfl⟩ | ⟨k, -, -, -, rfl⟩ | ⟨-, -, rfl⟩ | ⟨k, -, -, rfl⟩ | ⟨-, -, rfl⟩ :=
    step_cases h
  case inl => exact absurd hp hs
  case inr.inl => exact absurd hp hs
  all_goals simp [State.roundStep]

/-- PARSE's schedule is one, a function of the block and of the old schedule. -/
theorem State.Parsed.unique {s : State} {w v : Vector Word 80} (hw : s.Parsed w) (hv : s.Parsed v) : w = v := by
  apply Vector.ext
  intro k hk
  by_cases h : k < 16
  · exact (hw.low ⟨k, hk⟩ h).trans (hv.low ⟨k, hk⟩ h).symm
  · exact (hw.high ⟨k, hk⟩ (Nat.not_lt.1 h)).trans (hv.high ⟨k, hk⟩ (Nat.not_lt.1 h)).symm

/-- A step outside IDLE does not look at the host's commands. -/
theorem busy_step_ignores_host {s u : State} (hs : s.phase ≠ .idle) (h : step s = .next u) (l : List CmdWord) :
    step { s with host := l } = .next { u with host := l } := by
  obtain ⟨hp, -⟩ | ⟨_, _, hp, -⟩ | ⟨w, hp, ht, hw, rfl⟩ | ⟨k, hp, ht, hk, rfl⟩ | ⟨hp, ht, rfl⟩ | ⟨k, hp, ht, rfl⟩ |
    ⟨hp, ht, rfl⟩ := step_cases h
  · exact absurd hp hs
  · exact absurd hp hs
  · obtain ⟨v, hv, hstep⟩ := step_parse (s := { s with host := l }) hp ht
    rw [hstep, hw.unique ⟨hv.low, hv.high⟩]
    rfl
  · rw [step_sched (s := { s with host := l }) hp k hk ht, State.advance_eq, State.advance_eq]
    rfl
  · exact step_seed (s := { s with host := l }) hp ht
  · rw [step_round (s := { s with host := l }) hp k ht, State.roundStep_eq ht, State.roundStep_eq ht]
  · exact step_fold (s := { s with host := l }) hp ht

/-! ## Back to IDLE -/

/-- `n` steps bring the engine to (IDLE, 0), the same commands waiting and nothing answered. -/
def State.ReturnsIn (n : Nat) (s : State) : Prop :=
  ∃ u, stepN n s = .next u ∧ u.phase = .idle ∧ u.t = 0 ∧ u.host = s.host ∧ u.responses = s.responses

/-- A busy step before a return makes a return one step longer. -/
theorem State.ReturnsIn.of_step {n : Nat} {s u : State} (hs : s.phase ≠ .idle) (h : step s = .next u)
    (hu : u.ReturnsIn n) : s.ReturnsIn (n + 1) := by
  obtain ⟨v, hrun, hp, ht, hhost, hresp⟩ := hu
  obtain ⟨uhost, uresp⟩ := busy_step_keeps_port hs h
  exact ⟨v, by rw [stepN, h]; exact hrun, hp, ht, hhost.trans uhost, hresp.trans uresp⟩

theorem State.fold_returns {s : State} (hp : s.phase = .fold) (ht : s.t = 0) : s.ReturnsIn 1 :=
  .of_step (by simp [hp]) (step_fold hp ht) ⟨_, rfl, rfl, rfl, rfl, rfl⟩

/-- The rows of a loop of the sequencer (43 R131): phase `stay` from index `lo` on, left for `leave` at 79. -/
def LoopRows (lo : Nat) (stay leave : Phase) : Prop :=
  ∀ s : State, s.phase = stay → lo ≤ s.t.toNat → s.t.toNat ≤ 79 → ∃ u, step s = .next u ∧
    (s.t.toNat ≤ 78 → u.phase = stay ∧ u.t = s.t + 1) ∧ (s.t.toNat = 79 → u.phase = leave ∧ u.t = 0)

theorem round_loopRows : LoopRows 0 .round .fold := fun s hp _ ht =>
  ⟨_, step_round hp ⟨s.t.toNat, Nat.lt_succ_of_le ht⟩ rfl, State.advance_rows rfl _ _ _⟩

theorem sched_loopRows : LoopRows 16 .sched .seed := fun s hp hlo ht =>
  ⟨_, step_sched hp ⟨s.t.toNat, Nat.lt_succ_of_le ht⟩ hlo rfl, State.advance_rows rfl _ _ _⟩

/-- Where the phase after a loop returns in `r` steps, the loop returns from index `79 - m` in `m + 1` more. -/
theorem LoopRows.returns {lo r : Nat} {stay leave : Phase} (hrows : LoopRows lo stay leave) (hbusy : stay ≠ .idle)
    (hleave : ∀ u : State, u.phase = leave → u.t = 0 → u.ReturnsIn r) (m : Nat) :
    ∀ s : State, s.phase = stay → lo ≤ s.t.toNat → s.t.toNat + m = 79 → s.ReturnsIn (r + m + 1) := by
  induction m with
  | zero =>
    intro s hp hlo hm
    obtain ⟨u, hstep, -, hlast⟩ := hrows s hp hlo (by omega)
    obtain ⟨hup, hut⟩ := hlast hm
    exact .of_step (hp ▸ hbusy) hstep (hleave u hup hut)
  | succ m ih =>
    intro s hp hlo hm
    obtain ⟨u, hstep, hnext, -⟩ := hrows s hp hlo (by omega)
    obtain ⟨hup, hut⟩ := hnext (by omega)
    have hsucc : u.t.toNat = s.t.toNat + 1 := by
      rw [hut, BitVec.toNat_add]
      exact Nat.mod_eq_of_lt (by simp; omega)
    exact .of_step (hp ▸ hbusy) hstep (ih u hup (by omega) (by omega))

theorem State.round_returns {s : State} (hp : s.phase = .round) (ht : s.t.toNat ≤ 79) :
    s.ReturnsIn (1 + (79 - s.t.toNat) + 1) :=
  round_loopRows.returns (by decide) (fun _ => State.fold_returns) _ s hp (Nat.zero_le _) (Nat.add_sub_cancel' ht)

theorem State.seed_returns {s : State} (hp : s.phase = .seed) (ht : s.t = 0) : s.ReturnsIn 82 :=
  .of_step (by simp [hp]) (step_seed hp ht) (State.round_returns rfl (Nat.zero_le _))

theorem State.sched_returns {s : State} (hp : s.phase = .sched) (hlo : 16 ≤ s.t.toNat) (ht : s.t.toNat ≤ 79) :
    s.ReturnsIn (82 + (79 - s.t.toNat) + 1) :=
  sched_loopRows.returns (by decide) (fun _ => State.seed_returns) _ s hp hlo (Nat.add_sub_cancel' ht)

theorem State.parse_returns {s : State} (hp : s.phase = .parse) (ht : s.t = 0) : s.ReturnsIn 147 := by
  obtain ⟨_, -, h⟩ := step_parse hp ht
  exact .of_step (by simp [hp]) h (State.sched_returns rfl (Nat.le_refl 16) (show (16 : BitVec 7).toNat ≤ 79 by decide))

/-- A busy state of the invariant is at most the whole block, 147 steps, from IDLE. -/
theorem State.Inv.returns {s : State} (hs : s.Inv) (hbusy : s.phase ≠ .idle) : ∃ n, n ≤ 147 ∧ s.ReturnsIn n := by
  obtain ⟨hle, hzero, hsched, -⟩ := hs
  cases hp : s.phase with
  | idle => exact absurd hp hbusy
  | parse => exact ⟨147, Nat.le_refl _, State.parse_returns hp (hzero (by simp [hp]))⟩
  | sched =>
    have hlo := hsched hp
    exact ⟨_, by omega, State.sched_returns hp hlo hle⟩
  | seed => exact ⟨82, by decide, State.seed_returns hp (hzero (by simp [hp]))⟩
  | round => exact ⟨_, by omega, State.round_returns hp hle⟩
  | fold => exact ⟨1, by decide, State.fold_returns hp (hzero (by simp [hp]))⟩

/-! ## In IDLE -/

/-- Performed or faulting, a command leaves the host's list alone: `step` has taken the command from it. -/
theorem command_keeps_host {w : CmdWord} {s u : State} (h : exec (decodeCmd w) s = .next u) : u.host = s.host := by
  obtain ⟨_, -, he⟩ | ⟨-, he⟩ | ⟨_, _, _, -, -, he⟩ | ⟨_, _, -, -, -, he⟩ | ⟨_, _, _, -, -, -, he⟩ |
    ⟨_, _, _, -, -, he⟩ | ⟨-, -, -, he⟩ := command_cases w s
  all_goals
    cases h.symm.trans he
    rfl

/-- An accepted command has exactly one response. -/
theorem command_responds_once {w : CmdWord} {s u : State} (h : exec (decodeCmd w) s = .next u) :
    ∃ r, u.responses = s.responses ++ [r] := by
  obtain ⟨-, _, hr⟩ | ⟨_, -, -, hr⟩ := command_fault_responses h
  · exact ⟨_, hr⟩
  · exact ⟨_, hr⟩

/-- Settles O8: a busy step touches neither of the host's two lists nor reads the commands, each phase of the invariant returns
to IDLE, and there `step` takes the head of the list and its meaning responds once. -/
theorem commandIsHeldWhileBusyAndAcceptedWhenIdle : Obligations.CommandIsHeldWhileBusyAndAcceptedWhenIdle := by
  refine ⟨fun s u hs h => ?_, fun s hs hbusy => ?_, fun s w rest hp ht hh => ?_⟩
  · obtain ⟨hhost, hresp⟩ := busy_step_keeps_port hs h
    exact ⟨decide_eq_false hs, hhost, hresp, busy_step_ignores_host hs h⟩
  · obtain ⟨n, hn, u, hu⟩ := hs.returns hbusy
    exact ⟨n, u, hn, hu⟩
  · obtain ⟨u, he⟩ := exec_decodeCmd_next w { s with host := rest }
    obtain ⟨r, hr⟩ := command_responds_once he
    exact ⟨decide_eq_true hp, u, r, (step_command hp ht hh).trans he, command_keeps_host he, hr⟩

end Sys2Proof.Machine
end

section
/-! PROOFS. The exception family (60_exceptions R176, R177): what a non-zero cause in a response says of the whole step, and that
no meaning reads `FAULT`. -/

namespace Sys2Proof.Machine

/-! ## Fault entry -/

/-- A command that answers a non-zero cause took the fault entry of that cause: a performed command answers cause 0. -/
theorem command_faulted_of_cause {w : CmdWord} {s u : State} {c : BitVec 3} {rdata : Word}
    (h : exec (decodeCmd w) s = .next u) (hr : u.responses = s.responses ++ [c ++ rdata]) (hc : c ≠ 0) :
    ∃ k : Cause, k.code = c ∧ rdata = 0 ∧ u = s.faulted k := by
  have answered_last : ∀ {d : BitVec 3} {q : Word}, u.responses = s.responses ++ [d ++ q] → d = c ∧ q = rdata :=
    fun hd => response_inj (List.singleton_inj.1 (List.append_cancel_left (hd.symm.trans hr)))
  obtain ⟨k, -, he⟩ | ⟨-, he⟩ | ⟨_, _, _, -, -, he⟩ | ⟨_, _, -, -, -, he⟩ | ⟨_, _, _, -, -, -, he⟩ |
    ⟨_, _, _, -, -, he⟩ | ⟨-, -, -, he⟩ := command_cases w s
  all_goals cases h.symm.trans he
  case inl =>
    obtain ⟨hcode, hdata⟩ := answered_last rfl
    exact ⟨k, hcode, hdata.symm, rfl⟩
  all_goals exact absurd (answered_last rfl).1.symm hc

/-- Settles O10: the command took the fault entry of its cause, which touches `FAULT` and the responses alone. -/
theorem faultEntryChangesOnlyFaultAndTheResponse : Obligations.FaultEntryChangesOnlyFaultAndTheResponse := by
  intro s u w rest c rdata hp ht hh h hr hc
  rw [step_command hp ht hh] at h
  obtain ⟨k, rfl, rfl, rfl⟩ := command_faulted_of_cause h hr hc
  exact ⟨rfl, fun hs => congrArg Cause.code (if_pos hs), fun hs => if_neg hs, rfl⟩

/-! ## A recorded fault is no mode -/

/-- Where `o` has a next state, `o'` has the same one, up to `FAULT`. -/
def SameUpToFault (o o' : Host.Outcome State Fault Refusal) : Prop :=
  ∀ u, o = .next u → ∃ f, o' = .next { u with fault := f }

namespace SameUpToFault

theorem next (u : State) (f : Cause) : SameUpToFault (.next u) (.next { u with fault := f }) := by
  rintro _ ⟨⟩
  exact ⟨f, rfl⟩

theorem refused (r : Refusal) (o : Host.Outcome State Fault Refusal) : SameUpToFault (.refused r) o := nofun

theorem ite {p : Prop} [Decidable p] {o o' q q' : Host.Outcome State Fault Refusal} (ho : SameUpToFault o o')
    (hq : SameUpToFault q q') : SameUpToFault (if p then o else q) (if p then o' else q') := by
  split
  · exact ho
  · exact hq

/-- A fault entry records its cause or keeps the recorded one; the rest does not depend on which. -/
theorem raiseFault (k c : Cause) (s : State) :
    SameUpToFault (raiseFault k s) (raiseFault k { s with fault := c }) := next _ _

/-- A performed command answers and leaves `FAULT`. -/
theorem done (c : Cause) (s : State) (rdata : Word) :
    SameUpToFault (done s rdata) (done { s with fault := c } rdata) := next _ _

/-- The two loops' `advance` sets the phase and `t` by the index alone. -/
theorem advance (c : Cause) (s : State) (k : Fin 80) (stay leave : Phase) :
    SameUpToFault (.next (s.advance k stay leave)) (.next (State.advance { s with fault := c } k stay leave)) := by
  rw [State.advance_eq, State.advance_eq]
  exact next _ c

end SameUpToFault

section

variable (c : Cause) (s : State)

theorem execNop_ignores_fault (idx : BitVec 8) (data : Word) :
    SameUpToFault (execNop idx data s) (execNop idx data { s with fault := c }) :=
  .ite (.done c s 0) (.raiseFault _ c s)

theorem execWrh_ignores_fault (idx : BitVec 8) (data : Word) :
    SameUpToFault (execWrh idx data s) (execWrh idx data { s with fault := c }) := by
  unfold execWrh
  cases stateIndex idx with
  | none => exact .raiseFault _ c s
  | some i => exact .done c (s.writeH i data) 0

theorem execRdh_ignores_fault (idx : BitVec 8) (data : Word) :
    SameUpToFault (execRdh idx data s) (execRdh idx data { s with fault := c }) := by
  unfold execRdh
  cases readIndex idx data with
  | none => exact .raiseFault _ c s
  | some i => exact .ite (.done c s (s.readH i)) (.raiseFault _ c s)

theorem execWrb_ignores_fault (idx : BitVec 8) (data : Word) :
    SameUpToFault (execWrb idx data s) (execWrb idx data { s with fault := c }) := by
  unfold execWrb
  cases byteOperands idx data with
  | none => exact .raiseFault _ c s
  | some p => exact .done c (s.writeByte p.1 p.2) 0

theorem execWrw_ignores_fault (idx : BitVec 8) (data : Word) :
    SameUpToFault (execWrw idx data s) (execWrw idx data { s with fault := c }) := by
  unfold execWrw
  cases wordIndex idx with
  | none => exact .raiseFault _ c s
  | some j => exact .done c (s.writeWord j data) 0

theorem execStart_ignores_fault (idx : BitVec 8) (data : Word) :
    SameUpToFault (execStart idx data s) (execStart idx data { s with fault := c }) :=
  .ite (.ite (.ite (.done c (s.enter .parse 0) 0) (.raiseFault _ c s)) (.raiseFault _ c s)) (.raiseFault _ c s)

theorem execSched_ignores_fault (t : BitVec 7) :
    SameUpToFault (execSched t s) (execSched t { s with fault := c }) := by
  unfold execSched
  cases schedIndex t with
  | none => exact .refused _ _
  | some k => exact .advance c (s.setW (s.W.set k.val (scheduleWord s.W k))) k .sched .seed

theorem roundAt_ignores_fault (g : Fin 4) (t : BitVec 7) :
    SameUpToFault (roundAt g t s) (roundAt g t { s with fault := c }) := by
  unfold roundAt
  cases roundIndex g t with
  | none => exact .refused _ _
  | some k => exact .advance c (s.setRegs (s.roundTemp g k) s.a (rotl s.b 30) s.c s.d) k .round .fold

/-- No instruction's meaning reads `FAULT`, except to keep the first cause. -/
theorem exec_ignores_fault (i : Instr) : SameUpToFault (exec i s) (exec i { s with fault := c }) := by
  cases i with
  | nop idx data => exact execNop_ignores_fault c s idx data
  | wrh idx data => exact execWrh_ignores_fault c s idx data
  | rdh idx data => exact execRdh_ignores_fault c s idx data
  | wrb idx data => exact execWrb_ignores_fault c s idx data
  | wrw idx data => exact execWrw_ignores_fault c s idx data
  | start idx data => exact execStart_ignores_fault c s idx data
  | rsvd67 _ _ _ => exact .raiseFault _ c s
  | rsvd8F _ _ _ => exact .raiseFault _ c s
  | parse => exact .next (((s.setW s.parsedW).clearBV).enter .sched 16) c
  | sched t => exact execSched_ignores_fault c s t
  | seed => exact .next ((s.setRegs s.H[0] s.H[1] s.H[2] s.H[3] s.H[4]).enter .round 0) c
  | roundCh t => exact roundAt_ignores_fault c s 0 t
  | roundPar1 t => exact roundAt_ignores_fault c s 1 t
  | roundMaj t => exact roundAt_ignores_fault c s 2 t
  | roundPar3 t => exact roundAt_ignores_fault c s 3 t
  | fold => exact .next ((s.setH s.foldedH).enter .idle 0) c

theorem State.select_ignores_fault : ({ s with fault := c } : State).select = s.select := rfl

/-- What is selected does not depend on `FAULT`, and its meaning does not read it. -/
theorem step_ignores_fault : SameUpToFault (step s) (step { s with fault := c }) := by
  unfold step
  rw [State.select_ignores_fault c s]
  cases s.select with
  | command w => exact exec_ignores_fault c s.takeCommand (decodeCmd w)
  | micro i => exact exec_ignores_fault c s i
  | waiting => exact .next s c
  | nothing => exact .refused _ _

end

/-- Settles O12: neither the choice of the operation nor its meaning reads `FAULT`, a recorded cause sticks, and the reset event
clears it. -/
theorem recordedFaultDoesNotChangeWhatIsDone : Obligations.RecordedFaultDoesNotChangeWhatIsDone := by
  refine ⟨fun s u c => step_ignores_fault c s u, fun s u h hs => ?_, fun left s => s.assertRst_fault left⟩
  rwa [step_keeps_recorded_fault h hs]

end Sys2Proof.Machine
end

section
/-! PROOFS. The invariant of the reachable states (10_state section 10): reset meets it and every step keeps it. -/

namespace Sys2Proof.Machine

theorem State.Inv.full_HV {s : State} (hs : s.Inv) (hp : s.phase ≠ .idle) : s.HV = fullHV := by
  obtain ⟨-, -, -, hHV, -⟩ := hs
  exact hHV hp

theorem State.Inv.full_BV {s : State} (hs : s.Inv) (hp : s.phase = .parse) : s.BV = fullBV := by
  obtain ⟨-, -, -, -, hBV, -⟩ := hs
  exact hBV hp

theorem State.Inv.zero_BV {s : State} (hs : s.Inv) (hp : s.phase.parsed = true) : s.BV = 0 := by
  obtain ⟨-, -, -, -, -, hBV⟩ := hs
  exact hBV hp

/-- In (IDLE, 0) the invariant asks for nothing more. -/
theorem State.inv_of_idle {s : State} (hp : s.phase = .idle) (ht : s.t = 0) : s.Inv := by
  simp [State.Inv, hp, ht, Phase.parsed]

/-- An accepted command leaves the engine in (IDLE, 0), or it is START, which enters PARSE where all of `H` and `B` is valid. -/
theorem command_keeps_inv {w : CmdWord} {s u : State} (hp : s.phase = .idle) (ht : s.t = 0)
    (h : exec (decodeCmd w) s = .next u) : u.Inv := by
  by_cases hs : decodeCmd w = .start 0 0 ∧ s.HV = fullHV ∧ s.BV = fullBV
  · obtain ⟨hd, hH, hB⟩ := hs
    rw [hd, exec_start_ready hH hB] at h
    cases h
    simp [State.Inv, hH, hB, Phase.parsed]
  · obtain ⟨hup, hut⟩ := command_keeps_seq h hs
    exact State.inv_of_idle (hup.trans hp) (hut.trans ht)

/-- Advancing a loop that runs between PARSE and FOLD keeps the invariant: inside the loop `t` rises and stays at most 79, and
after 79 the next phase starts at 0. -/
theorem State.inv_advance {s : State} {k : Fin 80} {stay leave : Phase} (hHV : s.HV = fullHV) (hBV : s.BV = 0)
    (hloop : stay = .sched ∧ 16 ≤ k.val ∧ leave = .seed ∨ stay = .round ∧ leave = .fold) :
    (s.advance k stay leave).Inv := by
  unfold State.advance
  split
  case isTrue =>
    obtain ⟨-, -, rfl⟩ | ⟨-, rfl⟩ := hloop <;> simp [State.Inv, hHV, hBV]
  case isFalse hk =>
    have ht : (BitVec.ofNat 7 (k.val + 1)).toNat = k.val + 1 := by
      rw [BitVec.toNat_ofNat]
      omega
    obtain ⟨rfl, hlo, -⟩ | ⟨rfl, -⟩ := hloop
    · simp [State.Inv, -BitVec.toNat_ofNat, ht, hHV, hBV]
      omega
    · simp [State.Inv, -BitVec.toNat_ofNat, ht, hHV, hBV]
      omega

/-- Settles O39: commands keep the sequencer in IDLE but for an accepted START, and each micro-operation takes `t` to the range
of its next phase, with `HV` full and `BV` consumed since PARSE. -/
theorem everyStepKeepsTheInvariant : Obligations.EveryStepKeepsTheInvariant := by
  intro s u hs h
  obtain ⟨-, -, -, rfl⟩ | ⟨w, rest, hp, ht, -, he⟩ | ⟨w, hp, -, -, rfl⟩ | ⟨k, hp, -, hk, rfl⟩ | ⟨hp, -, rfl⟩ |
    ⟨k, hp, -, rfl⟩ | ⟨-, -, rfl⟩ := step_cases h
  · exact hs
  · exact command_keeps_inv (s := { s with host := rest }) hp ht he
  · simp [State.Inv, hs.full_HV (by simp [hp])]
  · exact State.inv_advance (hs.full_HV (by simp [hp])) (hs.zero_BV (by simp [hp, Phase.parsed])) (.inl ⟨rfl, hk, rfl⟩)
  · simp [State.Inv, hs.full_HV (by simp [hp]), hs.zero_BV (by simp [hp, Phase.parsed])]
  · exact State.inv_advance (hs.full_HV (by simp [hp])) (hs.zero_BV (by simp [hp, Phase.parsed])) (.inr ⟨rfl, rfl⟩)
  · exact State.inv_of_idle rfl rfl

/-- Settles O40: both states are in (IDLE, 0). -/
theorem invariantHoldsAfterReset : Obligations.InvariantHoldsAfterReset :=
  ⟨State.inv_of_idle rfl rfl, fun _ _ => State.inv_of_idle rfl rfl⟩

/-- Settles O41: the invariant keeps the sequencer inside R67's table. -/
theorem invariantStateAlwaysSteps : Obligations.InvariantStateAlwaysSteps := fun _ hs => hs.exists_step

end Sys2Proof.Machine
end

section
/-! PROOFS. Decoding and encoding (30_encoding sections 2, 4, 5, 9): the two are inverse to each other, and the opcode table
covers a word by the row of its operation. -/

namespace Sys2Proof.Machine

/-! ## Decoding undoes encoding -/

theorem decode_encodeCmd (op : BitVec 4) (idx : BitVec 8) (data : Word) :
    decode (encodeCmd op idx data) = .ok (decodeCmd (op ++ idx ++ data)) := rfl

theorem decode_encodeSeq (p : BitVec 3) (t : BitVec 7) : decode (encodeSeq p t) = decodeSeqFields p t :=
  decodeSeq_append p t

theorem tInRange_eq_false_iff {lo hi : Nat} {t : BitVec 7} : tInRange lo hi t = false ↔ t.toNat < lo ∨ hi < t.toNat := by
  rw [Bool.eq_false_iff, Ne, tInRange_iff]
  omega

/-- A range excludes every range that ends below it. -/
theorem tInRange_false_of_lt {lo hi lo' hi' : Nat} {t : BitVec 7} (h : tInRange lo hi t = true) (hlt : hi' < lo) :
    tInRange lo' hi' t = false :=
  tInRange_eq_false_iff.2 (.inr (Nat.lt_of_lt_of_le hlt (tInRange_iff.1 h).1))

/-- A range excludes every range that starts above it. -/
theorem tInRange_false_of_gt {lo hi lo' hi' : Nat} {t : BitVec 7} (h : tInRange lo hi t = true) (hlt : hi < lo') :
    tInRange lo' hi' t = false :=
  tInRange_eq_false_iff.2 (.inl (Nat.lt_of_le_of_lt (tInRange_iff.1 h).2 hlt))

/-- A reserved opcode of the second row is none of the opcodes the decoder asks for first. -/
theorem decodeCmd_rsvd8F {op : BitVec 4} (hop : 8 ≤ op.toNat) (idx : BitVec 8) (data : Word) :
    decodeCmd (op ++ idx ++ data) = .rsvd8F op idx data := by
  have hne : ∀ c : BitVec 4, c.toNat < 8 → op ≠ c := by
    rintro c hc rfl
    omega
  rw [decodeCmd, cmdOp_append, cmdIdx_append, cmdData_append, if_neg (hne 0 (by decide)), if_neg (hne 1 (by decide)),
    if_neg (hne 2 (by decide)), if_neg (hne 3 (by decide)), if_neg (hne 4 (by decide)), if_neg (hne 5 (by decide)),
    if_neg (not_or.2 ⟨hne 6 (by decide), hne 7 (by decide)⟩)]

theorem decodeCmd_rsvd67 {op : BitVec 4} (hop : op = 6 ∨ op = 7) (idx : BitVec 8) (data : Word) :
    decodeCmd (op ++ idx ++ data) = .rsvd67 op idx data := by
  obtain rfl | rfl := hop <;> simp [decodeCmd]

/-- Settles O1: row by row, the fields put into the word are read back and select the row again. -/
theorem decodeOfEncodeIsTheOperation : Obligations.DecodeOfEncodeIsTheOperation := by
  intro i hi
  cases i with
  | nop idx data => simp [encode, decode_encodeCmd, decodeCmd]
  | wrh idx data => simp [encode, decode_encodeCmd, decodeCmd]
  | rdh idx data => simp [encode, decode_encodeCmd, decodeCmd]
  | wrb idx data => simp [encode, decode_encodeCmd, decodeCmd]
  | wrw idx data => simp [encode, decode_encodeCmd, decodeCmd]
  | start idx data => simp [encode, decode_encodeCmd, decodeCmd]
  | rsvd67 op idx data =>
    have hop : op = 6 ∨ op = 7 := by simpa [Instr.WellFormed, Instr.wellFormed] using hi
    rw [encode, decode_encodeCmd, decodeCmd_rsvd67 hop]
  | rsvd8F op idx data => rw [encode, decode_encodeCmd, decodeCmd_rsvd8F (of_decide_eq_true hi)]
  | parse => rfl
  | sched t =>
    have ht : tInRange 16 79 t = true := hi
    simp [encode, decode_encodeSeq, decodeSeqFields, ht]
  | seed => rfl
  | roundCh t =>
    have ht : tInRange 0 19 t = true := hi
    simp [encode, decode_encodeSeq, decodeSeqFields, ht]
  | roundPar1 t =>
    have ht : tInRange 20 39 t = true := hi
    simp [encode, decode_encodeSeq, decodeSeqFields, ht, tInRange_false_of_lt ht]
  | roundMaj t =>
    have ht : tInRange 40 59 t = true := hi
    simp [encode, decode_encodeSeq, decodeSeqFields, ht, tInRange_false_of_lt ht]
  | roundPar3 t =>
    have ht : tInRange 60 79 t = true := hi
    simp [encode, decode_encodeSeq, decodeSeqFields, ht, tInRange_false_of_lt ht]
  | fold => rfl

/-! ## Encoding undoes decoding -/

theorem decodeCmd_wellFormed_encode (op : BitVec 4) (idx : BitVec 8) (data : Word) :
    (decodeCmd (op ++ idx ++ data)).WellFormed ∧ encode (decodeCmd (op ++ idx ++ data)) = encodeCmd op idx data := by
  simp only [decodeCmd, cmdOp_append, cmdIdx_append, cmdData_append]
  split_ifs with h0 h1 h2 h3 h4 h5 h67
  · exact ⟨rfl, by rw [h0]; rfl⟩
  · exact ⟨rfl, by rw [h1]; rfl⟩
  · exact ⟨rfl, by rw [h2]; rfl⟩
  · exact ⟨rfl, by rw [h3]; rfl⟩
  · exact ⟨rfl, by rw [h4]; rfl⟩
  · exact ⟨rfl, by rw [h5]; rfl⟩
  · exact ⟨by simpa [Instr.WellFormed, Instr.wellFormed] using h67, rfl⟩
  · refine ⟨?_, rfl⟩
    have upper : ∀ c : BitVec 4, ¬ c = 0 → ¬ c = 1 → ¬ c = 2 → ¬ c = 3 → ¬ c = 4 → ¬ c = 5 → ¬ (c = 6 ∨ c = 7) →
        8 ≤ c.toNat := by decide
    exact decide_eq_true (upper op h0 h1 h2 h3 h4 h5 h67)

theorem decodeSeqFields_wellFormed_encode {p : BitVec 3} {t : BitVec 7} {i : Instr} (h : decodeSeqFields p t = .ok i) :
    i.WellFormed ∧ encode i = encodeSeq p t := by
  unfold decodeSeqFields at h
  split_ifs at h with h0 _ h1 ht h2 ht h3 ht h4 hch hpar1 hmaj hpar3 h5 ht <;> cases h
  · exact ⟨rfl, by rw [h1, ht]; rfl⟩
  · exact ⟨ht, by rw [h2]; rfl⟩
  · exact ⟨rfl, by rw [h3, ht]; rfl⟩
  · exact ⟨hch, by rw [h4]; rfl⟩
  · exact ⟨hpar1, by rw [h4]; rfl⟩
  · exact ⟨hmaj, by rw [h4]; rfl⟩
  · exact ⟨hpar3, by rw [h4]; rfl⟩
  · exact ⟨rfl, by rw [h5, ht]; rfl⟩

/-- Settles O2: a word is its fields put together, and the row they select encodes to them. -/
theorem decodedOperationEncodesToItsWord : Obligations.DecodedOperationEncodesToItsWord := by
  intro c i h
  cases c with
  | cmd w =>
    cases h
    have hw := decodeCmd_wellFormed_encode (cmdOp w) (cmdIdx w) (cmdData w)
    rwa [encodeCmd, cmd_fields] at hw
  | seq w =>
    have hw := decodeSeqFields_wellFormed_encode (p := seqPhase w) (t := seqT w) h
    rwa [encodeSeq, seq_fields] at hw

/-! ## The fields of a command word -/

/-- Fields appended are the sum of their numbers at their bit positions (30_encoding R61). -/
theorem cmdWord_toNat (op : BitVec 4) (idx : BitVec 8) (data : Word) :
    (op ++ idx ++ data).toNat = op.toNat * 2 ^ 40 + idx.toNat * 2 ^ 32 + data.toNat := by
  simp only [toNat_append_eq_add]
  omega

/-- Settles O3: a word of that number is its three fields, and every word has such fields. -/
theorem commandDecodesByItsOpField : Obligations.CommandDecodesByItsOpField := by
  refine ⟨fun op idx data w hw => ?_, fun w => ⟨cmdOp w, cmdIdx w, cmdData w, ?_⟩⟩
  · rw [show w = op ++ idx ++ data from BitVec.eq_of_toNat_eq (hw.trans (cmdWord_toNat op idx data).symm)]
    refine ⟨?_, ?_, ?_, ?_, ?_, ?_, fun h => decodeCmd_rsvd67 h idx data, fun h => decodeCmd_rsvd8F h idx data⟩
    all_goals
      rintro rfl
      simp [decodeCmd]
  · rw [← cmdWord_toNat, cmd_fields]

/-- Settles O5: each word evaluated by its decoder. -/
theorem specWordsDecodeAsWritten : Obligations.SpecWordsDecodeAsWritten := by
  refine ⟨?_, ?_, ?_, ?_, ?_, ?_, ?_, ?_, ?_, ?_⟩ <;> decide

/-! ## The opcode table -/

/-- The row's mask keeps only the field its format decodes by: `op`, or the phase (30_encoding R72). -/
def Row.masksSelector : Row → Bool
  | .cmd _ mask _ => decide (mask = cmdOp mask ++ (0 : BitVec 8) ++ (0 : Word))
  | .seq _ mask _ _ _ => decide (mask = 0x380)

theorem opcodeTable_masksSelector : ∀ r ∈ opcodeTable, Row.masksSelector r = true := by decide +kernel

/-- The operands of a command word do not change whether a row covers it. -/
theorem covers_cmd_ignores_operands {r : Row} (hr : Row.masksSelector r = true) (op : BitVec 4) (idx : BitVec 8) (data : Word) :
    r.covers (.cmd (op ++ idx ++ data)) = r.covers (.cmd (op ++ (0 : BitVec 8) ++ (0 : Word))) := by
  cases r with
  | cmd name mask value =>
    have hmask : mask = cmdOp mask ++ (0 : BitVec 8) ++ (0 : Word) := by rwa [Row.masksSelector, decide_eq_true_eq] at hr
    simp only [Row.covers]
    rw [hmask, cmd_mask, cmd_mask]
  | seq name mask value lo hi => simp only [Row.covers]

/-- The operands of a command word do not change the row of its operation. -/
theorem rowOf_decodeCmd_ignores_operands (op : BitVec 4) (idx : BitVec 8) (data : Word) :
    rowOf (decodeCmd (op ++ idx ++ data)) = rowOf (decodeCmd (op ++ (0 : BitVec 8) ++ (0 : Word))) := by
  simp only [decodeCmd, cmdOp_append, apply_ite rowOf]
  simp only [rowOf]

/-- The sixteen opcodes, each in the word without operands. -/
theorem opcodeTable_filter_op : ∀ op : BitVec 4,
    opcodeTable.filter (fun r => r.covers (.cmd (op ++ (0 : BitVec 8) ++ (0 : Word)))) =
      [rowOf (decodeCmd (op ++ (0 : BitVec 8) ++ (0 : Word)))] := by decide +kernel

theorem opcodeTable_filter_cmd (op : BitVec 4) (idx : BitVec 8) (data : Word) :
    opcodeTable.filter (fun r => r.covers (.cmd (op ++ idx ++ data))) = [rowOf (decodeCmd (op ++ idx ++ data))] := by
  rw [rowOf_decodeCmd_ignores_operands, ← opcodeTable_filter_op]
  exact List.filter_congr fun r hr => covers_cmd_ignores_operands (opcodeTable_masksSelector r hr) op idx data

/-- The row is of a sequencer word with phase `p`. -/
def Row.inPhase (p : BitVec 3) : Row → Bool
  | .cmd _ _ _ => false
  | .seq _ _ value _ _ => decide (p ++ (0 : BitVec 7) = value)

/-- The row's range holds `t`. -/
def Row.inRange (t : BitVec 7) : Row → Bool
  | .cmd _ _ _ => false
  | .seq _ _ _ lo hi => tInRange lo hi t

/-- A sequencer word is covered by the rows of its phase whose range holds its `t`. -/
theorem covers_seq_eq {r : Row} (hr : Row.masksSelector r = true) (p : BitVec 3) (t : BitVec 7) :
    r.covers (.seq (p ++ t)) = (Row.inRange t r && Row.inPhase p r) := by
  cases r with
  | cmd name mask value => rfl
  | seq name mask value lo hi =>
    rw [Row.covers, of_decide_eq_true hr, seqT_append, Bool.and_comm]
    exact congrArg (fun x => tInRange lo hi t && decide (x = value)) (seq_mask p t)

/-- The rows of each phase. -/
theorem opcodeTable_filter_phase :
    opcodeTable.filter (Row.inPhase 0) = [] ∧ opcodeTable.filter (Row.inPhase 1) = [rowOf .parse] ∧
    opcodeTable.filter (Row.inPhase 2) = [rowOf (.sched 16)] ∧ opcodeTable.filter (Row.inPhase 3) = [rowOf .seed] ∧
    opcodeTable.filter (Row.inPhase 4) =
      [rowOf (.roundCh 0), rowOf (.roundPar1 20), rowOf (.roundMaj 40), rowOf (.roundPar3 60)] ∧
    opcodeTable.filter (Row.inPhase 5) = [rowOf .fold] ∧ opcodeTable.filter (Row.inPhase 6) = [] ∧
    opcodeTable.filter (Row.inPhase 7) = [] := by decide +kernel

/-- The rows a decoded sequencer word is covered by: its micro-operation's, or none. -/
def rowsOf : Except DecodeError Instr → List Row
  | .ok i => [rowOf i]
  | .error _ => []

theorem tInRange_zero (t : BitVec 7) : tInRange 0 0 t = decide (t = 0) := by
  simp [tInRange, BitVec.toNat_eq]

/-- In ROUND the four ranges exclude each other, so at most one row is left, the one the decoder selects. -/
theorem round_rows_inRange (t : BitVec 7) :
    [rowOf (.roundCh 0), rowOf (.roundPar1 20), rowOf (.roundMaj 40), rowOf (.roundPar3 60)].filter (Row.inRange t) =
      rowsOf (decodeSeqFields 4 t) := by
  simp only [decodeSeqFields, List.filter, Row.inRange, rowOf]
  by_cases h0 : tInRange 0 19 t
  · have h1 : tInRange 20 39 t = false := tInRange_false_of_gt h0 (by decide)
    have h2 : tInRange 40 59 t = false := tInRange_false_of_gt h0 (by decide)
    have h3 : tInRange 60 79 t = false := tInRange_false_of_gt h0 (by decide)
    simp [h0, h1, h2, h3, rowsOf, rowOf]
  by_cases h1 : tInRange 20 39 t
  · have h2 : tInRange 40 59 t = false := tInRange_false_of_gt h1 (by decide)
    have h3 : tInRange 60 79 t = false := tInRange_false_of_gt h1 (by decide)
    simp [h0, h1, h2, h3, rowsOf, rowOf]
  by_cases h2 : tInRange 40 59 t
  · have h3 : tInRange 60 79 t = false := tInRange_false_of_gt h2 (by decide)
    simp [h0, h1, h2, h3, rowsOf, rowOf]
  by_cases h3 : tInRange 60 79 t <;> simp [h0, h1, h2, h3, rowsOf, rowOf]

/-- The phase leaves the rows of its micro-operations, and of those the range of `t` leaves the one selected. -/
theorem opcodeTable_filter_seq (p : BitVec 3) (t : BitVec 7) :
    opcodeTable.filter (fun r => r.covers (.seq (p ++ t))) = rowsOf (decodeSeqFields p t) := by
  obtain ⟨f0, f1, f2, f3, f4, f5, f6, f7⟩ := opcodeTable_filter_phase
  rw [List.filter_congr fun r hr => covers_seq_eq (opcodeTable_masksSelector r hr) p t, ← List.filter_filter]
  obtain rfl | rfl | rfl | rfl | rfl | rfl | rfl | rfl := phaseCode_cases p
  · rw [f0]
    simp only [decodeSeqFields]
    split_ifs <;> rfl
  · rw [f1]
    by_cases ht : t = 0#7 <;> simp [decodeSeqFields, Row.inRange, rowOf, rowsOf, tInRange_zero, ht]
  · rw [f2]
    by_cases ht : tInRange 16 79 t <;> simp [decodeSeqFields, Row.inRange, rowOf, rowsOf, ht]
  · rw [f3]
    by_cases ht : t = 0#7 <;> simp [decodeSeqFields, Row.inRange, rowOf, rowsOf, tInRange_zero, ht]
  · rw [f4, round_rows_inRange]
  · rw [f5]
    by_cases ht : t = 0#7 <;> simp [decodeSeqFields, Row.inRange, rowOf, rowsOf, tInRange_zero, ht]
  · rw [f6]
    rfl
  · rw [f7]
    rfl

/-- Settles O4: a command word is covered as its opcode is, a sequencer word as its phase and `t` are. -/
theorem tableRowsCoverEachWordOnce : Obligations.TableRowsCoverEachWordOnce := by
  refine ⟨fun w => ?_, fun w i h => ?_, fun w x h => ?_⟩
  · have hw := opcodeTable_filter_cmd (cmdOp w) (cmdIdx w) (cmdData w)
    rwa [cmd_fields] at hw
  · rw [← seq_fields w, opcodeTable_filter_seq, show decodeSeqFields (seqPhase w) (seqT w) = .ok i from h]
    rfl
  · rw [← seq_fields w, opcodeTable_filter_seq, show decodeSeqFields (seqPhase w) (seqT w) = .error x from h]
    rfl

end Sys2Proof.Machine
end

section
/-! PROOFS. The schedule invariant and the batch of four (41_schedule R100 to R104). -/

namespace Sys2Proof.Machine

/-! ## What a round step leaves -/

section

variable (s : State) (g : Fin 4) (k : Fin 80)

@[simp] theorem State.roundStep_H : (s.roundStep g k).H = s.H := by simp [State.roundStep]
@[simp] theorem State.roundStep_HV : (s.roundStep g k).HV = s.HV := by simp [State.roundStep]
@[simp] theorem State.roundStep_B : (s.roundStep g k).B = s.B := by simp [State.roundStep]
@[simp] theorem State.roundStep_BV : (s.roundStep g k).BV = s.BV := by simp [State.roundStep]
@[simp] theorem State.roundStep_W : (s.roundStep g k).W = s.W := by simp [State.roundStep]
@[simp] theorem State.roundStep_fault : (s.roundStep g k).fault = s.fault := by simp [State.roundStep]
@[simp] theorem State.roundStep_host : (s.roundStep g k).host = s.host := by simp [State.roundStep]
@[simp] theorem State.roundStep_responses : (s.roundStep g k).responses = s.responses := by simp [State.roundStep]

theorem State.roundStep_phase : (s.roundStep g k).phase = .round ∨ (s.roundStep g k).phase = .fold := by
  rw [State.roundStep, State.advance_phase]
  split
  · exact .inr rfl
  · exact .inl rfl

end

/-! ## The recurrence -/

/-- Writing a later word keeps the recurrence at the earlier ones: a word depends on earlier words only. -/
theorem recurrenceAt_set_of_lt {w : Vector Word 80} {k n : Fin 80} (hkn : k.val < n.val) (x : Word) :
    recurrenceAt (w.set n.val x) k ↔ recurrenceAt w k := by
  have other : ∀ (m : Nat) (hm : m < 80), m ≤ k.val → (w.set n.val x)[m] = w[m] := fun m hm hle =>
    Vector.getElem_set_ne _ _ (by omega)
  simp only [recurrenceAt, Fin.getElem_fin]
  rw [other _ _ (Nat.le_refl _), other _ _ (Nat.sub_le _ 3), other _ _ (Nat.sub_le _ 8), other _ _ (Nat.sub_le _ 14),
    other _ _ (Nat.sub_le _ 16)]

/-- The word SCHED writes satisfies the recurrence: its taps are earlier words, which the write leaves. -/
theorem recurrenceAt_set_scheduleWord {w : Vector Word 80} {n : Fin 80} (hn : 16 ≤ n.val) :
    recurrenceAt (w.set n.val (scheduleWord w n)) n := by
  have tap_eq : ∀ (d : Nat), 0 < d → d ≤ 16 →
      (w.set n.val (scheduleWord w n))[n.val - d]'(by omega) = tap w n d := fun d h0 hd =>
    Vector.getElem_set_ne _ _ (by omega)
  simp only [recurrenceAt, Fin.getElem_fin, Vector.getElem_set_self]
  rw [tap_eq 3 (by decide) (by decide), tap_eq 8 (by decide) (by decide), tap_eq 14 (by decide) (by decide),
    tap_eq 16 (by decide) (by decide)]
  rfl

/-! ## The invariant -/

/-- `W[0..15]` are the big-endian words of the block in the buffer. -/
def State.HoldsBlock (s : State) : Prop :=
  ∀ k : Fin 80, k.val < 16 → s.W[k] = be32 (s.B.read (4 * k.val)) (s.B.read (4 * k.val + 1)) (s.B.read (4 * k.val + 2))
    (s.B.read (4 * k.val + 3))

/-- The words from 16 to below `n` satisfy the recurrence. -/
def State.GeneratedBelow (s : State) (n : Nat) : Prop :=
  ∀ k : Fin 80, 16 ≤ k.val → k.val < n → recurrenceAt s.W k

theorem State.scheduleInv_iff {s : State} : s.ScheduleInv ↔
    (s.phase.parsed = true → s.HoldsBlock) ∧ (s.phase = .sched → s.GeneratedBelow s.t.toNat) ∧
    (s.phase = .seed ∨ s.phase = .round ∨ s.phase = .fold → s.GeneratedBelow 80) := by
  have all : s.GeneratedBelow 80 ↔ ∀ k : Fin 80, 16 ≤ k.val → recurrenceAt s.W k :=
    ⟨fun h k hk => h k hk k.isLt, fun h k hk _ => h k hk⟩
  rw [all]
  rfl

/-- Before PARSE the invariant asks for nothing. -/
theorem State.scheduleInv_of_not_parsed {s : State} (hp : s.phase.parsed = false) : s.ScheduleInv := by
  rw [State.scheduleInv_iff]
  cases hs : s.phase <;> simp [hs, Phase.parsed] at hp ⊢

theorem State.GeneratedBelow.mono {s : State} {m n : Nat} (h : s.GeneratedBelow n) (hmn : m ≤ n) : s.GeneratedBelow m :=
  fun k hk hlt => h k hk (Nat.lt_of_lt_of_le hlt hmn)

/-- After SCHED the invariant asks for the whole schedule, which `u` has from `s` if its `W` and `B` are those of `s`. -/
theorem State.scheduleInv_of_generated {s u : State} (hW : u.W = s.W) (hB : u.B = s.B)
    (hp : u.phase = .seed ∨ u.phase = .round ∨ u.phase = .fold) (hblock : s.HoldsBlock) (hgen : s.GeneratedBelow 80) :
    u.ScheduleInv := by
  refine State.scheduleInv_iff.2 ⟨fun _ => ?_, fun h => absurd hp (by simp [h]), fun _ => ?_⟩
  · rwa [State.HoldsBlock, hW, hB]
  · rwa [State.GeneratedBelow, hW]

/-- A command leaves the engine in IDLE or PARSE. -/
theorem command_keeps_not_parsed {w : CmdWord} {s u : State} (hp : s.phase = .idle) (h : exec (decodeCmd w) s = .next u) :
    u.phase.parsed = false := by
  by_cases hs : decodeCmd w = .start 0 0 ∧ s.HV = fullHV ∧ s.BV = fullBV
  · obtain ⟨hd, hH, hB⟩ := hs
    rw [hd, exec_start_ready hH hB] at h
    cases h
    rfl
  · obtain ⟨hup, -⟩ := command_keeps_seq h hs
    rw [hup, hp]
    rfl

/-- SCHED at `n` leaves the block's words and adds one word to those that satisfy the recurrence. -/
theorem State.sched_keeps_scheduleInv {s : State} {n : Fin 80} (hs : s.ScheduleInv) (hp : s.phase = .sched)
    (ht : s.t.toNat = n.val) (hn : 16 ≤ n.val) :
    ((s.setW (s.W.set n.val (scheduleWord s.W n))).advance n .sched .seed).ScheduleInv := by
  rw [State.scheduleInv_iff] at hs
  obtain ⟨hblock, hgen, -⟩ := hs
  replace hblock := hblock (by rw [hp]; rfl)
  replace hgen := hgen hp
  have block' : ((s.setW (s.W.set n.val (scheduleWord s.W n))).advance n .sched .seed).HoldsBlock := by
    intro k hk
    simp only [State.advance_W, State.setW_W, State.advance_B, State.setW_B, Fin.getElem_fin]
    rw [Vector.getElem_set_ne _ _ (by omega)]
    exact hblock k hk
  have gen' : ((s.setW (s.W.set n.val (scheduleWord s.W n))).advance n .sched .seed).GeneratedBelow (n.val + 1) := by
    intro k hk hlt
    simp only [State.advance_W, State.setW_W]
    by_cases e : k = n
    · subst e
      exact recurrenceAt_set_scheduleWord hk
    · have hkn : k.val < n.val := by
        have : k.val ≠ n.val := fun h => e (Fin.ext h)
        omega
      exact (recurrenceAt_set_of_lt hkn _).2 (hgen k hk (by omega))
  by_cases e : n.val = 79
  · exact State.scheduleInv_of_generated rfl rfl (.inl (by simp [e])) block' (gen'.mono (by omega))
  · have next : ((s.setW (s.W.set n.val (scheduleWord s.W n))).advance n .sched .seed).t.toNat = n.val + 1 := by
      rw [State.advance_t, if_neg e, BitVec.toNat_ofNat]
      omega
    exact State.scheduleInv_iff.2 ⟨fun _ => block', fun _ => gen'.mono (Nat.le_of_eq next), fun h => absurd h (by simp [e])⟩

/-- Settles O42: PARSE sets up the block's words, SCHED adds one word at a time, the other micro-operations leave `W` and `B`,
and commands run where the invariant asks for nothing. -/
theorem everyStepKeepsTheScheduleInvariant : Obligations.EveryStepKeepsTheScheduleInvariant := by
  intro s u hs h
  obtain ⟨-, -, -, rfl⟩ | ⟨w, rest, hp, -, -, he⟩ | ⟨w, -, -, hw, rfl⟩ | ⟨n, hp, ht, hn, rfl⟩ | ⟨hp, -, rfl⟩ |
    ⟨n, hp, -, rfl⟩ | ⟨-, -, rfl⟩ := step_cases h
  · exact hs
  · exact State.scheduleInv_of_not_parsed (command_keeps_not_parsed (s := { s with host := rest }) hp he)
  · exact State.scheduleInv_iff.2 ⟨fun _ => hw.be32_read, fun _ k hk hlt => absurd hlt (Nat.not_lt.2 hk), by simp⟩
  · exact State.sched_keeps_scheduleInv hs hp ht hn
  · obtain ⟨hblock, -, hgen⟩ := State.scheduleInv_iff.1 hs
    exact State.scheduleInv_of_generated rfl rfl (.inr (.inl rfl)) (hblock (by rw [hp]; rfl)) (hgen (.inl hp))
  · obtain ⟨hblock, -, hgen⟩ := State.scheduleInv_iff.1 hs
    exact State.scheduleInv_of_generated (s.roundStep_W _ n) (s.roundStep_B _ n) (.inr (s.roundStep_phase _ n))
      (hblock (by rw [hp]; rfl)) (hgen (.inr (.inl hp)))
  · exact State.scheduleInv_of_not_parsed rfl

/-! ## Grouped generation -/

/-- One SCHED step of the loop, by its schedule and, before the end, its place in the loop. -/
theorem step_sched_exists {s : State} {k : Fin 80} (hp : s.phase = .sched) (hk : 16 ≤ k.val) (ht : s.t.toNat = k.val) :
    ∃ u, step s = .next u ∧ u.W = s.W.set k.val (scheduleWord s.W k) ∧
      (k.val < 79 → u.phase = .sched ∧ u.t.toNat = k.val + 1) := by
  refine ⟨_, step_sched hp k hk ht, by simp, fun hlt => ?_⟩
  have hne : k.val ≠ 79 := Nat.ne_of_lt hlt
  rw [State.advance_phase, State.advance_t, if_neg hne, if_neg hne, BitVec.toNat_ofNat]
  exact ⟨rfl, by omega⟩

/-- A word written less than three before `t` is no tap of `t`. -/
theorem scheduleWord_set_of_recent (w : Vector Word 80) {n : Nat} (hn : n < 80) {t : Fin 80} (h : t.val < n + 3)
    (ht : 16 ≤ t.val) (x : Word) : scheduleWord (w.set n x) t = scheduleWord w t := by
  have tap_eq : ∀ d, 3 ≤ d → d ≤ 16 → tap (w.set n x) t d = tap w t d := fun d h3 h16 =>
    Vector.getElem_set_ne _ _ (by omega)
  simp only [scheduleWord]
  rw [tap_eq 3 (by decide) (by decide), tap_eq 8 (by decide) (by decide), tap_eq 14 (by decide) (by decide),
    tap_eq 16 (by decide) (by decide)]

/-- The schedule after the four words from `k` on: three from the old schedule, the fourth from it and the first. -/
def batchW (w : Vector Word 80) (k : Nat) (hk : k + 3 < 80) : Vector Word 80 :=
  let first := w.set k (scheduleWord w ⟨k, by omega⟩)
  ((first.set (k + 1) (scheduleWord w ⟨k + 1, by omega⟩)).set (k + 2) (scheduleWord w ⟨k + 2, by omega⟩)).set (k + 3)
    (scheduleWord first ⟨k + 3, hk⟩)

/-- Four SCHED steps leave the batch's schedule. -/
theorem sched_four_steps {s : State} {k : Nat} (hp : s.phase = .sched) (ht : s.t.toNat = k) (hlo : 16 ≤ k) (hk : k + 3 < 80) :
    ∃ u, stepN 4 s = .next u ∧ u.W = batchW s.W k hk := by
  obtain ⟨p, hsp, pW, hpnext⟩ := step_sched_exists (k := ⟨k, by omega⟩) hp hlo ht
  obtain ⟨pp, pt⟩ := hpnext (by simp; omega)
  obtain ⟨q, hpq, qW, hqnext⟩ := step_sched_exists (k := ⟨k + 1, by omega⟩) pp (by simp; omega) pt
  obtain ⟨qp, qt⟩ := hqnext (by simp; omega)
  obtain ⟨r, hqr, rW, hrnext⟩ := step_sched_exists (k := ⟨k + 2, by omega⟩) qp (by simp; omega) qt
  obtain ⟨rp, rt⟩ := hrnext (by simp; omega)
  obtain ⟨u, hru, uW, -⟩ := step_sched_exists (k := ⟨k + 3, hk⟩) rp (by simp; omega) rt
  refine ⟨u, by simp only [stepN, hsp, hpq, hqr, hru], ?_⟩
  have second : scheduleWord p.W ⟨k + 1, by omega⟩ = scheduleWord s.W ⟨k + 1, by omega⟩ := by
    rw [pW, scheduleWord_set_of_recent _ _ (by simp) (by simp; omega)]
  have third : scheduleWord q.W ⟨k + 2, by omega⟩ = scheduleWord s.W ⟨k + 2, by omega⟩ := by
    rw [qW, scheduleWord_set_of_recent _ _ (by simp) (by simp; omega), pW,
      scheduleWord_set_of_recent _ _ (by simp) (by simp; omega)]
  have fourth : scheduleWord r.W ⟨k + 3, hk⟩ = scheduleWord p.W ⟨k + 3, hk⟩ := by
    rw [rW, scheduleWord_set_of_recent _ _ (by simp) (by simp; omega), qW,
      scheduleWord_set_of_recent _ _ (by simp) (by simp; omega)]
  rw [uW, fourth, rW, third, qW, second, pW]
  rfl

/-- Settles O49: each word of the batch is read back past the later writes, and only the fourth has a tap in the batch. -/
theorem fourSchedStepsAreOneBatch : Obligations.FourSchedStepsAreOneBatch := by
  intro s k hp ht hlo
  obtain ⟨u, hrun, hW⟩ := sched_four_steps (k := k.val) hp ht hlo (by omega)
  refine ⟨u, hrun, ?_, ?_, ?_, ?_, fun m hm => ?_⟩
  · simp [hW, batchW, scheduleWord, tap]
  · simp [hW, batchW, scheduleWord, tap]
  · simp [hW, batchW, scheduleWord, tap]
  · have other : ∀ d, 0 < d → k.val ≠ k.val - d := fun d hd => by omega
    simp [hW, batchW, scheduleWord, tap, other 5 (by decide), other 11 (by decide), other 13 (by decide)]
  · have outside : ∀ d, d ≤ 3 → k.val + d ≠ m.val := fun d hd => by omega
    have h0 : k.val ≠ m.val := outside 0 (Nat.zero_le 3)
    simp [hW, batchW, h0, outside]

end Sys2Proof.Machine
end

section
/-! PROOFS. Noninterference (10_state sections 2 to 5 and 9): two states that agree but for unspecified bits take steps to
states that agree so again. -/

namespace Sys2Proof.Machine

/-! ## The relation -/

/-- `Agree` as a structure, for proofs to build field by field. -/
structure AgreeFields (s u : State) : Prop where
  HV : s.HV = u.HV
  BV : s.BV = u.BV
  phase : s.phase = u.phase
  t : s.t = u.t
  fault : s.fault = u.fault
  host : s.host = u.host
  responses : s.responses = u.responses
  readH : ∀ i : Fin 5, s.validH i = true → s.readH i = u.readH i
  readByte : ∀ n : Fin 64, s.validB n = true → s.readByte n = u.readByte n
  W : ∀ k : Fin 80, s.wroteW k = true → s.W[k] = u.W[k]
  regs : s.phase = .round ∨ s.phase = .fold → s.a = u.a ∧ s.b = u.b ∧ s.c = u.c ∧ s.d = u.d ∧ s.e = u.e

theorem agree_iff {s u : State} : s.Agree u ↔ AgreeFields s u :=
  ⟨fun ⟨hHV, hBV, hp, ht, hf, hh, hr, hH, hB, hW, hregs⟩ => ⟨hHV, hBV, hp, ht, hf, hh, hr, hH, hB, hW, hregs⟩,
    fun ⟨hHV, hBV, hp, ht, hf, hh, hr, hH, hB, hW, hregs⟩ => ⟨hHV, hBV, hp, ht, hf, hh, hr, hH, hB, hW, hregs⟩⟩

/-- Where `o` has a next state, `o'` has one that agrees with it. -/
def AgreeOutcome (o o' : Host.Outcome State Fault Refusal) : Prop :=
  ∀ s', o = .next s' → ∃ u', o' = .next u' ∧ AgreeFields s' u'

namespace AgreeFields

variable {s u : State}

theorem next (h : AgreeFields s u) : AgreeOutcome (.next s) (.next u) := by
  rintro _ ⟨⟩
  exact ⟨u, rfl, h⟩

theorem validH (h : AgreeFields s u) (i : Fin 5) : s.validH i = u.validH i := by
  rw [State.validH, State.validH, h.HV]

theorem validB (h : AgreeFields s u) (n : Fin 64) : s.validB n = u.validB n := by
  rw [State.validB, State.validB, h.BV]

/-- The host goes on to the same next command. -/
theorem setHost (h : AgreeFields s u) (l : List CmdWord) : AgreeFields { s with host := l } { u with host := l } :=
  { h with host := rfl }

/-- A performed command answers the same word in both. -/
theorem done (h : AgreeFields s u) (rdata : Word) : AgreeOutcome (done s rdata) (done u rdata) :=
  next { h with responses := congrArg (· ++ [response .noFault rdata]) h.responses }

theorem raiseFault (h : AgreeFields s u) (c : Cause) : AgreeOutcome (raiseFault c s) (raiseFault c u) :=
  next { h with
    fault := congrArg (Cause.sticky · c) h.fault
    responses := congrArg (· ++ [response c 0]) h.responses }

theorem writeH (h : AgreeFields s u) (i : Fin 5) (v : Word) : AgreeFields (s.writeH i v) (u.writeH i v) :=
  { h with
    HV := congrArg (· ||| BitVec.twoPow 5 i.val) h.HV
    readH := by
      intro j hj
      rw [State.writeH_readH, State.writeH_readH]
      split
      case isTrue => rfl
      case isFalse hij => exact h.readH j (by simpa [State.writeH_validH, hij] using hj) }

theorem writeByte (h : AgreeFields s u) (hs : s.B.wf = true) (hu : u.B.wf = true) (n : Fin 64) (v : Byte) :
    AgreeFields (s.writeByte n v) (u.writeByte n v) :=
  { h with
    BV := congrArg (· ||| BitVec.twoPow 64 n.val) h.BV
    readByte := by
      intro m hm
      refine Memory.read_write_congr hs hu n.val v fun hne => h.readByte m ?_
      have hnm : n ≠ m := fun e => hne (congrArg Fin.val e.symm)
      simpa [State.writeByte_validB, hnm] using hm }

theorem writeWord (h : AgreeFields s u) (hs : s.B.wf = true) (hu : u.B.wf = true) (j : Fin 16) (v : Word) :
    AgreeFields (s.writeWord j v) (u.writeWord j v) := by
  have h0 := h.writeByte hs hu (byteOfWord j 0) (v.extractLsb' 24 8)
  have hs0 := s.wf_writeByte (byteOfWord j 0) (v.extractLsb' 24 8) hs
  have hu0 := u.wf_writeByte (byteOfWord j 0) (v.extractLsb' 24 8) hu
  have h1 := h0.writeByte hs0 hu0 (byteOfWord j 1) (v.extractLsb' 16 8)
  have hs1 := State.wf_writeByte _ (byteOfWord j 1) (v.extractLsb' 16 8) hs0
  have hu1 := State.wf_writeByte _ (byteOfWord j 1) (v.extractLsb' 16 8) hu0
  have h2 := h1.writeByte hs1 hu1 (byteOfWord j 2) (v.extractLsb' 8 8)
  have hs2 := State.wf_writeByte _ (byteOfWord j 2) (v.extractLsb' 8 8) hs1
  have hu2 := State.wf_writeByte _ (byteOfWord j 2) (v.extractLsb' 8 8) hu1
  exact h2.writeByte hs2 hu2 (byteOfWord j 3) (v.extractLsb' 0 8)

end AgreeFields

/-! ## Commands -/

section

variable {s u : State} (h : AgreeFields s u) (hs : s.B.wf = true) (hu : u.B.wf = true) (idx : BitVec 8) (data : Word)

include h

theorem execNop_agree : AgreeOutcome (execNop idx data s) (execNop idx data u) := by
  unfold execNop
  split
  · exact h.done 0
  · exact h.raiseFault .badOperand

theorem execWrh_agree : AgreeOutcome (execWrh idx data s) (execWrh idx data u) := by
  unfold execWrh
  cases stateIndex idx with
  | none => exact h.raiseFault .badOperand
  | some i => exact (h.writeH i data).done 0

/-- RDH reads a state word only where its valid bit is set. -/
theorem execRdh_agree : AgreeOutcome (execRdh idx data s) (execRdh idx data u) := by
  unfold execRdh
  cases readIndex idx data with
  | none => exact h.raiseFault .badOperand
  | some i =>
    dsimp only
    rw [← h.validH i]
    split
    case isTrue hv =>
      rw [← h.readH i hv]
      exact h.done _
    case isFalse => exact h.raiseFault .stateUninit

include hs hu in
theorem execWrb_agree : AgreeOutcome (execWrb idx data s) (execWrb idx data u) := by
  unfold execWrb
  cases byteOperands idx data with
  | none => exact h.raiseFault .badOperand
  | some p => exact (h.writeByte hs hu p.1 p.2).done 0

include hs hu in
theorem execWrw_agree : AgreeOutcome (execWrw idx data s) (execWrw idx data u) := by
  unfold execWrw
  cases wordIndex idx with
  | none => exact h.raiseFault .badOperand
  | some j => exact (h.writeWord hs hu j data).done 0

/-- START, in IDLE, reads the valid bits alone; in PARSE neither the schedule nor the registers count. -/
theorem execStart_agree : AgreeOutcome (execStart idx data s) (execStart idx data u) := by
  unfold execStart State.allValidH State.allValidB
  rw [← h.HV, ← h.BV]
  split_ifs
  · refine AgreeFields.done (s := s.enter .parse 0) (u := u.enter .parse 0) ?_ 0
    exact { h with phase := rfl, t := rfl, W := nofun, regs := nofun }
  · exact h.raiseFault .blockIncomplete
  · exact h.raiseFault .stateUninit
  · exact h.raiseFault .badOperand

include hs hu in
theorem exec_decodeCmd_agree (w : CmdWord) : AgreeOutcome (exec (decodeCmd w) s) (exec (decodeCmd w) u) := by
  obtain ⟨-, e⟩ | ⟨-, e⟩ | ⟨-, e⟩ | ⟨-, e⟩ | ⟨-, e⟩ | ⟨-, e⟩ | ⟨-, e | e⟩ := decodeCmd_cases w
  all_goals rw [e]
  · exact execNop_agree h _ _
  · exact execWrh_agree h _ _
  · exact execRdh_agree h _ _
  · exact execWrb_agree h hs hu _ _
  · exact execWrw_agree h hs hu _ _
  · exact execStart_agree h _ _
  · exact h.raiseFault .illegalOp
  · exact h.raiseFault .illegalOp

end

/-! ## Micro-operations -/

section

variable {s u : State} (h : AgreeFields s u)

include h

/-- Every byte PARSE reads is valid, and behind it no byte is. -/
theorem parse_agree (hBV : s.BV = fullBV) {w v : Vector Word 80} (hw : s.Parsed w) (hv : u.Parsed v) :
    AgreeFields (((s.setW w).clearBV).enter .sched 16) (((u.setW v).clearBV).enter .sched 16) :=
  { h with
    BV := rfl
    phase := rfl
    t := rfl
    readByte := fun n hn => absurd hn (by simp)
    W := by
      intro k hk
      have hlt : k.val < 16 := of_decide_eq_true hk
      have bytes : ∀ n, s.readByte n = u.readByte n := fun n => h.readByte n (validB_of_full hBV n)
      calc w[k] = s.readWord ⟨k.val, hlt⟩ := hw.low k hlt
        _ = u.readWord ⟨k.val, hlt⟩ := by simp only [State.readWord, bytes]
        _ = v[k] := (hv.low k hlt).symm
    regs := nofun }

/-- SCHED's taps are words already written, and it writes the next one. -/
theorem sched_agree (hp : s.phase = .sched) {n : Fin 80} (ht : s.t.toNat = n.val) (hn : 16 ≤ n.val) :
    AgreeFields ((s.setW (s.W.set n.val (scheduleWord s.W n))).advance n .sched .seed)
      ((u.setW (u.W.set n.val (scheduleWord u.W n))).advance n .sched .seed) := by
  have earlier : ∀ (k : Nat) (hk : k < 80), k < n.val → s.W[k] = u.W[k] := fun k hk hlt =>
    h.W ⟨k, hk⟩ (by simpa [State.wroteW, hp, ht] using hlt)
  have word : scheduleWord s.W n = scheduleWord u.W n := by
    simp only [scheduleWord, tap]
    rw [earlier _ _ (by omega), earlier _ _ (by omega), earlier _ _ (by omega), earlier _ _ (by omega)]
  rw [State.advance_eq, State.advance_eq]
  exact { h with
    phase := rfl
    t := rfl
    W := by
      intro k hk
      by_cases e : k.val = n.val
      · simp [e, word]
      · have hlt : k.val < n.val := by
          by_cases e79 : n.val = 79
          · omega
          · simp [State.wroteW, e79] at hk
            omega
        simp [Vector.getElem_set_ne, Ne.symm e, earlier k.val k.isLt hlt]
    regs := by
      intro hr
      split at hr <;> simp at hr }

/-- SEED reads the state words, all valid while busy. -/
theorem seed_agree (hp : s.phase = .seed) (hHV : s.HV = fullHV) :
    AgreeFields ((s.setRegs s.H[0] s.H[1] s.H[2] s.H[3] s.H[4]).enter .round 0)
      ((u.setRegs u.H[0] u.H[1] u.H[2] u.H[3] u.H[4]).enter .round 0) := by
  have words : ∀ i : Fin 5, s.readH i = u.readH i := fun i => h.readH i (validH_of_full hHV i)
  exact { h with
    phase := rfl
    t := rfl
    W := fun k _ => h.W k (by simp [State.wroteW, hp])
    regs := fun _ => ⟨words 0, words 1, words 2, words 3, words 4⟩ }

/-- A round step reads the registers and a word of the whole schedule. -/
theorem round_agree (hp : s.phase = .round) (n : Fin 80) (g : Fin 4) : AgreeFields (s.roundStep g n) (u.roundStep g n) := by
  obtain ⟨ha, hb, hc, hd, he⟩ := h.regs (.inl hp)
  have wrote : ∀ k, s.wroteW k = true := fun k => by simp [State.wroteW, hp]
  have temp : s.roundTemp g n = u.roundTemp g n := by
    rw [State.roundTemp, State.roundTemp, ha, hb, hc, hd, he, h.W n (wrote n)]
  rw [State.roundStep, State.roundStep, State.advance_eq, State.advance_eq]
  exact { h with
    phase := rfl
    t := rfl
    W := fun k _ => h.W k (wrote k)
    regs := fun _ => ⟨temp, ha, congrArg (rotl · 30) hb, hc, hd⟩ }

/-- FOLD reads the state words and the registers, and leaves IDLE, where neither schedule nor registers count. -/
theorem fold_agree (hp : s.phase = .fold) (hHV : s.HV = fullHV) :
    AgreeFields ((s.setH s.foldedH).enter .idle 0) ((u.setH u.foldedH).enter .idle 0) := by
  obtain ⟨ha, hb, hc, hd, he⟩ := h.regs (.inr hp)
  have words : s.H = u.H := Vector.ext fun i hi => h.readH ⟨i, hi⟩ (validH_of_full hHV ⟨i, hi⟩)
  have folded : s.foldedH = u.foldedH := by
    rw [State.foldedH, State.foldedH, words, ha, hb, hc, hd, he]
  exact { h with
    phase := rfl
    t := rfl
    readH := fun i _ => congrArg (·[i]) folded
    W := nofun
    regs := nofun }

end

/-- Settles O53: commands read what is valid, and while busy `HV` is full, PARSE has the whole block, SCHED its taps, and ROUND
and FOLD the registers and the schedule. -/
theorem unspecifiedBitsNeverReachTheHost : Obligations.UnspecifiedBitsNeverReachTheHost := by
  intro s u s' hinv hs hu hagree h
  have hag := agree_iff.1 hagree
  simp only [agree_iff]
  obtain ⟨hp, ht, hh, rfl⟩ | ⟨w, rest, hp, ht, hh, he⟩ | ⟨w, hp, ht, hw, rfl⟩ | ⟨n, hp, ht, hn, rfl⟩ | ⟨hp, ht, rfl⟩ |
    ⟨n, hp, ht, rfl⟩ | ⟨hp, ht, rfl⟩ := step_cases h
  · exact ⟨u, step_waiting (hag.phase ▸ hp) (hag.t ▸ ht) (hag.host ▸ hh), hag⟩
  · rw [step_command (hag.phase ▸ hp) (hag.t ▸ ht) (hag.host ▸ hh)]
    exact exec_decodeCmd_agree (hag.setHost rest) hs hu w s' he
  · obtain ⟨v, hv, hstep⟩ := step_parse (s := u) (hag.phase ▸ hp) (hag.t ▸ ht)
    exact ⟨_, hstep, parse_agree hag (hinv.full_BV hp) hw hv⟩
  · exact ⟨_, step_sched (hag.phase ▸ hp) n hn (hag.t ▸ ht), sched_agree hag hp ht hn⟩
  · exact ⟨_, step_seed (hag.phase ▸ hp) (hag.t ▸ ht), seed_agree hag hp (hinv.full_HV (by simp [hp]))⟩
  · exact ⟨_, step_round (hag.phase ▸ hp) n (hag.t ▸ ht), round_agree hag hp n _⟩
  · exact ⟨_, step_fold (hag.phase ▸ hp) (hag.t ▸ ht), fold_agree hag hp (hinv.full_HV (by simp [hp]))⟩

end Sys2Proof.Machine
end

section
/-! PROOFS. The stored state over a step (10_state sections 2 and 3, 20_memory section 1): what a step can do to `H`, `HV`, `B`
and `BV`, said once, and the invariants that follow. -/

namespace Sys2Proof.Machine

/-- `u` stores what `s` stores. -/
structure SameStorage (s u : State) : Prop where
  H : u.H = s.H
  HV : u.HV = s.HV
  B : u.B = s.B
  BV : u.BV = s.BV

/-- What an accepted command can store: nothing, one state word, one block byte or one block word. -/
theorem command_storage {w : CmdWord} {s u : State} (h : exec (decodeCmd w) s = .next u) :
    SameStorage s u ∨
    (∃ idx v, ∃ i : Fin 5, decodeCmd w = .wrh idx v ∧ idx.toNat = i.val ∧ SameStorage (s.writeH i v) u) ∨
    (∃ n v, SameStorage (s.writeByte n v) u) ∨ (∃ j v, SameStorage (s.writeWord j v) u) := by
  obtain ⟨_, -, he⟩ | ⟨-, he⟩ | ⟨idx, v, i, hd, hi, he⟩ | ⟨_, _, -, -, -, he⟩ | ⟨_, data, n, -, -, -, he⟩ |
    ⟨_, v, j, -, -, he⟩ | ⟨-, -, -, he⟩ := command_cases w s
  all_goals cases h.symm.trans he
  case inr.inr.inl => exact .inr (.inl ⟨idx, v, i, hd, hi, rfl, rfl, rfl, rfl⟩)
  case inr.inr.inr.inr.inl => exact .inr (.inr (.inl ⟨n, data.setWidth 8, rfl, rfl, rfl, rfl⟩))
  case inr.inr.inr.inr.inr.inl => exact .inr (.inr (.inr ⟨j, v, rfl, rfl, rfl, rfl⟩))
  all_goals exact .inl ⟨rfl, rfl, rfl, rfl⟩

/-- What a step can do to the stored state: a command's store, FOLD's new `H`, PARSE's cleared `BV`, or nothing. -/
theorem step_storage {s u : State} (h : step s = .next u) :
    SameStorage s u ∨
    (s.phase = .idle ∧ ∃ w rest idx v, ∃ i : Fin 5, s.host = w :: rest ∧ decodeCmd w = .wrh idx v ∧ idx.toNat = i.val ∧
      SameStorage (s.writeH i v) u) ∨
    (∃ n v, SameStorage (s.writeByte n v) u) ∨ (∃ j v, SameStorage (s.writeWord j v) u) ∨
    (s.phase = .parse ∧ SameStorage s.clearBV u) ∨ (s.phase = .fold ∧ SameStorage (s.setH s.foldedH) u) := by
  obtain ⟨-, -, -, rfl⟩ | ⟨w, rest, hp, -, hh, he⟩ | ⟨w, hp, -, -, rfl⟩ | ⟨n, -, -, -, rfl⟩ | ⟨-, -, rfl⟩ |
    ⟨n, -, -, rfl⟩ | ⟨hp, -, rfl⟩ := step_cases h
  · exact .inl ⟨rfl, rfl, rfl, rfl⟩
  · obtain hsame | ⟨idx, v, i, hd, hi, hw⟩ | ⟨n, v, hw⟩ | ⟨j, v, hw⟩ := command_storage he
    · exact .inl ⟨hsame.H, hsame.HV, hsame.B, hsame.BV⟩
    · exact .inr (.inl ⟨hp, w, rest, idx, v, i, hh, hd, hi, hw.H, hw.HV, hw.B, hw.BV⟩)
    · exact .inr (.inr (.inl ⟨n, v, hw.H, hw.HV, hw.B, hw.BV⟩))
    · exact .inr (.inr (.inr (.inl ⟨j, v, hw.H, hw.HV, hw.B, hw.BV⟩)))
  · exact .inr (.inr (.inr (.inr (.inl ⟨hp, rfl, rfl, rfl, rfl⟩))))
  · exact .inl ⟨by simp, by simp, by simp, by simp⟩
  · exact .inl ⟨rfl, rfl, rfl, rfl⟩
  · exact .inl ⟨s.roundStep_H _ n, s.roundStep_HV _ n, s.roundStep_B _ n, s.roundStep_BV _ n⟩
  · exact .inr (.inr (.inr (.inr (.inr ⟨hp, rfl, rfl, rfl, rfl⟩))))

/-- Settles O13: of the stores a step can make, WRH's and FOLD's are to `H`. -/
theorem onlyWrhAndFoldChangeStateWords : Obligations.OnlyWrhAndFoldChangeStateWords := by
  intro s u h hne
  obtain hw | ⟨hp, w, rest, idx, v, i, hh, hd, hi, hw⟩ | ⟨_, _, hw⟩ | ⟨_, _, hw⟩ | ⟨-, hw⟩ | ⟨hp, -⟩ := step_storage h
  case inr.inl => exact .inr ⟨hp, w, rest, idx, v, i, hh, hd, hi, hw.H⟩
  case inr.inr.inr.inr.inr => exact .inl hp
  all_goals exact absurd hw.H hne

theorem SameStorage.validH {s u : State} (h : SameStorage s u) (i : Fin 5) : u.validH i = s.validH i := by
  rw [State.validH, State.validH, h.HV]

theorem SameStorage.validB {s u : State} (h : SameStorage s u) (n : Fin 64) : u.validB n = s.validB n := by
  rw [State.validB, State.validB, h.BV]

/-- The valid bit of a state word over a step: it stays, or an accepted WRH of the word's index sets it. -/
theorem step_validH {s u : State} (h : step s = .next u) (i : Fin 5) :
    u.validH i = s.validH i ∨
    (u.validH i = true ∧ s.phase = .idle ∧ ∃ w rest idx v, s.host = w :: rest ∧ decodeCmd w = .wrh idx v ∧
      idx.toNat = i.val) := by
  obtain hw | ⟨hp, w, rest, idx, v, j, hh, hd, hj, hw⟩ | ⟨_, _, hw⟩ | ⟨_, _, hw⟩ | ⟨-, hw⟩ | ⟨-, hw⟩ := step_storage h
  case inr.inl =>
    have hv := hw.validH i
    rw [State.writeH_validH] at hv
    by_cases e : j = i
    · exact .inr ⟨by simp [hv, e], hp, w, rest, idx, v, hh, hd, hj.trans (congrArg Fin.val e)⟩
    · exact .inl (by simpa [e] using hv)
  all_goals exact .inl (hw.validH i)

/-- The valid bits of the block over a step: a set one stays set, or the step was PARSE and all are cleared. -/
theorem step_validB {s u : State} (h : step s = .next u) :
    (∀ n : Fin 64, s.validB n = true → u.validB n = true) ∨ (s.phase = .parse ∧ u.BV = 0) := by
  obtain hw | ⟨-, _, _, _, _, _, -, -, -, hw⟩ | ⟨_, _, hw⟩ | ⟨_, _, hw⟩ | ⟨hp, hw⟩ | ⟨-, hw⟩ := step_storage h
  · exact .inl fun n hn => by rw [hw.validB, hn]
  · exact .inl fun n hn => by rw [hw.validB, State.writeH_validB, hn]
  · exact .inl fun n hn => by rw [hw.validB, State.writeByte_validB, hn, Bool.true_or]
  · exact .inl fun n hn => by rw [hw.validB, State.writeWord_validB, hn, Bool.true_or]
  · exact .inr ⟨hp, hw.BV⟩
  · exact .inl fun n hn => by rw [hw.validB, State.setH_validB, hn]

/-- Settles O14: the two cases of each valid bit over a step. -/
theorem validBitsAreClearedOnlyByResetAndParse : Obligations.ValidBitsAreClearedOnlyByResetAndParse := by
  intro s u h
  constructor
  · intro i hi
    obtain hsame | ⟨hset, -⟩ := step_validH h i
    · rw [hsame, hi]
    · exact hset
  · rintro ⟨n, hn, hclear⟩
    obtain hkeep | hparse := step_validB h
    · exact absurd (hkeep n hn) (by simp [hclear])
    · exact hparse

/-- Settles O38: `B` changes by writes below address 64 alone, which keep the canonical form. -/
theorem blockBufferStaysCanonical : Obligations.BlockBufferStaysCanonical := by
  refine ⟨Memory.wf_nil, fun s u hs h => ?_⟩
  obtain hw | ⟨-, _, _, _, _, _, -, -, -, hw⟩ | ⟨n, v, hw⟩ | ⟨j, v, hw⟩ | ⟨-, hw⟩ | ⟨-, hw⟩ := step_storage h
  case inr.inr.inl => exact hw.B ▸ s.wf_writeByte n v hs
  case inr.inr.inr.inl => exact hw.B ▸ s.wf_writeWord j v hs
  all_goals exact hw.B ▸ hs

/-- Settles O51: reset clears `HV`, only an accepted WRH sets a bit of it, and RDH asks for the bit before it reads. -/
theorem stateIsUnreadableAfterReset : Obligations.StateIsUnreadableAfterReset := by
  refine ⟨fun left s => validH_of_HV_zero (s.assertRst_HV left), fun s u i hi h hno => ?_, fun s idx i => exec_rdh_stateUninit,
    fun s idx i v hidx => ⟨_, exec_wrh hidx s, ?_, fun j hj => ?_⟩⟩
  · obtain hsame | ⟨-, hp, w, rest, idx, v, hh, hd, hidx⟩ := step_validH h i
    · rw [hsame, hi]
    · exact absurd ⟨w, rest, idx, v, hp, hh, hd, hidx⟩ hno
  · have hread : ((s.writeH i v).answered 0).readH i = v := by
      rw [State.answered_readH, State.writeH_readH, if_pos rfl]
    rw [exec_rdh hidx (by simp [State.writeH_validH]), hread]
  · simp [State.writeH_validH, Ne.symm hj]

end Sys2Proof.Machine
end

section
/-! PROOFS. Frames (44_host_commands sections 1 and 2, 41_schedule, 42_round): the states each row's meaning can answer, and
what they share with the state before. -/

namespace Sys2Proof.Machine

/-! ## What each row can answer -/

section

variable {idx : BitVec 8} {data : Word} {s u : State}

theorem exec_nop_next (h : exec (.nop idx data) s = .next u) :
    (idx = 0 ∧ data = 0 ∧ u = s.answered 0) ∨ ((idx ≠ 0 ∨ data ≠ 0) ∧ u = s.faulted .badOperand) := by
  by_cases hop : idx = 0 ∧ data = 0
  · obtain ⟨rfl, rfl⟩ := hop
    cases h.symm.trans (exec_nop s)
    exact .inl ⟨rfl, rfl, rfl⟩
  · rw [not_and_or] at hop
    cases h.symm.trans (exec_nop_badOperand hop s)
    exact .inr ⟨hop, rfl⟩

theorem exec_rdh_next (h : exec (.rdh idx data) s = .next u) :
    (∃ i : Fin 5, idx.toNat = i.val ∧ data = 0 ∧ s.validH i = true ∧ u = s.answered (s.readH i)) ∨
    (∃ i : Fin 5, idx.toNat = i.val ∧ data = 0 ∧ s.validH i = false ∧ u = s.faulted .stateUninit) ∨
    ((5 ≤ idx.toNat ∨ data ≠ 0) ∧ u = s.faulted .badOperand) := by
  cases hop : readIndex idx data with
  | none =>
    have hbad := readIndex_eq_none.1 hop
    cases h.symm.trans (exec_rdh_badOperand hbad s)
    exact .inr (.inr ⟨hbad, rfl⟩)
  | some i =>
    obtain ⟨hi, rfl⟩ := readIndex_eq_some.1 hop
    cases hv : s.validH i with
    | true =>
      cases h.symm.trans (exec_rdh hi hv)
      exact .inl ⟨i, hi, rfl, hv, rfl⟩
    | false =>
      cases h.symm.trans (exec_rdh_stateUninit hi hv)
      exact .inr (.inl ⟨i, hi, rfl, hv, rfl⟩)

theorem exec_start_next (h : exec (.start idx data) s = .next u) :
    u = (s.enter .parse 0).answered 0 ∨ ∃ c, u = s.faulted c := by
  by_cases hop : idx = 0 ∧ data = 0
  · obtain ⟨rfl, rfl⟩ := hop
    by_cases hH : s.HV = fullHV
    · by_cases hB : s.BV = fullBV
      · cases h.symm.trans (exec_start_ready hH hB)
        exact .inl rfl
      · cases h.symm.trans (exec_start_blockIncomplete hH hB)
        exact .inr ⟨_, rfl⟩
    · cases h.symm.trans (exec_start_stateUninit hH)
      exact .inr ⟨_, rfl⟩
  · rw [not_and_or] at hop
    cases h.symm.trans (exec_start_badOperand hop s)
    exact .inr ⟨_, rfl⟩

theorem exec_wrh_next (h : exec (.wrh idx data) s = .next u) :
    (∃ i : Fin 5, idx.toNat = i.val ∧ u = (s.writeH i data).answered 0) ∨
    (5 ≤ idx.toNat ∧ u = s.faulted .badOperand) := by
  cases hop : stateIndex idx with
  | none =>
    have hbad := stateIndex_eq_none.1 hop
    cases h.symm.trans (exec_wrh_badOperand hbad s)
    exact .inr ⟨hbad, rfl⟩
  | some i =>
    have hi := stateIndex_eq_some.1 hop
    cases h.symm.trans (exec_wrh hi s)
    exact .inl ⟨i, hi, rfl⟩

theorem exec_wrb_next (h : exec (.wrb idx data) s = .next u) :
    (∃ n v, byteOperands idx data = some (n, v) ∧ u = (s.writeByte n v).answered 0) ∨
    (byteOperands idx data = none ∧ u = s.faulted .badOperand) := by
  cases hop : byteOperands idx data with
  | none =>
    cases h.symm.trans (exec_wrb_badOperand (byteOperands_eq_none.1 hop) s)
    exact .inr ⟨rfl, rfl⟩
  | some p =>
    obtain ⟨n, v⟩ := p
    obtain ⟨hn, hd, rfl⟩ := byteOperands_eq_some.1 hop
    cases h.symm.trans (exec_wrb hn hd s)
    exact .inl ⟨n, _, rfl, rfl⟩

theorem exec_wrw_next (h : exec (.wrw idx data) s = .next u) :
    (∃ j, wordIndex idx = some j ∧ u = (s.writeWord j data).answered 0) ∨
    (wordIndex idx = none ∧ u = s.faulted .badOperand) := by
  cases hop : wordIndex idx with
  | none =>
    cases h.symm.trans (exec_wrw_badOperand (wordIndex_eq_none.1 hop) s)
    exact .inr ⟨rfl, rfl⟩
  | some j =>
    cases h.symm.trans (exec_wrw (wordIndex_eq_some.1 hop) s)
    exact .inl ⟨j, rfl, rfl⟩

end

/-- A command row that stores nothing answers, faults, or is START, which enters PARSE. -/
theorem exec_storesNothing_next {s u : State} {i : Instr} (h : exec i s = .next u)
    (hi : ∃ (op : BitVec 4) (idx : BitVec 8) (data : Word), i = .nop idx data ∨ i = .rdh idx data ∨ i = .start idx data ∨
      i = .rsvd67 op idx data ∨ i = .rsvd8F op idx data) :
    (∃ r, u = s.answered r) ∨ (∃ c, u = s.faulted c) ∨
      ((∃ idx data, i = .start idx data) ∧ u = (s.enter .parse 0).answered 0) := by
  obtain ⟨op, idx, data, rfl | rfl | rfl | rfl | rfl⟩ := hi
  · obtain ⟨-, -, hu⟩ | ⟨-, hu⟩ := exec_nop_next h
    · exact .inl ⟨_, hu⟩
    · exact .inr (.inl ⟨_, hu⟩)
  · obtain ⟨_, -, -, -, hu⟩ | ⟨_, -, -, -, hu⟩ | ⟨-, hu⟩ := exec_rdh_next h
    · exact .inl ⟨_, hu⟩
    · exact .inr (.inl ⟨_, hu⟩)
    · exact .inr (.inl ⟨_, hu⟩)
  · obtain hu | hu := exec_start_next h
    · exact .inr (.inr ⟨⟨idx, data, rfl⟩, hu⟩)
    · exact .inr (.inl hu)
  · cases h.symm.trans (exec_rsvd67 op s)
    exact .inr (.inl ⟨_, rfl⟩)
  · cases h.symm.trans (exec_rsvd8F op s)
    exact .inr (.inl ⟨_, rfl⟩)

/-- Settles O27: an answer, a fault entry and entering PARSE touch none of these. -/
theorem frameOfCommandsThatStoreNothing : Obligations.FrameOfCommandsThatStoreNothing := by
  intro s u i h hi
  obtain ⟨r, rfl⟩ | ⟨c, rfl⟩ | ⟨⟨idx, data, hstart⟩, rfl⟩ := exec_storesNothing_next h hi
  · exact ⟨rfl, rfl, fun _ => rfl, rfl, rfl, rfl, rfl, rfl, rfl, rfl, rfl, fun _ => ⟨rfl, rfl⟩, _, rfl⟩
  · exact ⟨rfl, rfl, fun _ => rfl, rfl, rfl, rfl, rfl, rfl, rfl, rfl, rfl, fun _ => ⟨rfl, rfl⟩, _, rfl⟩
  · exact ⟨rfl, rfl, fun _ => rfl, rfl, rfl, rfl, rfl, rfl, rfl, rfl, rfl, fun hno => absurd hstart (hno idx data), _, rfl⟩

/-- Settles O28: WRH writes its word and its valid bit, or takes the fault entry. -/
theorem frameOfWrh : Obligations.FrameOfWrh := by
  intro s u idx v h
  obtain ⟨i, hi, rfl⟩ | ⟨hbad, rfl⟩ := exec_wrh_next h
  · refine ⟨fun j hj => ?_, fun _ => rfl, rfl, rfl, rfl, rfl, rfl, rfl, rfl, rfl, rfl, rfl, fun _ => rfl⟩
    have hij : i ≠ j := by
      rintro rfl
      exact hj hi
    have hread : (s.writeH i v).readH j = s.readH j := by rw [State.writeH_readH, if_neg hij]
    exact ⟨hread, by simp [State.writeH_validH, hij]⟩
  · exact ⟨fun _ _ => ⟨rfl, rfl⟩, fun _ => rfl, rfl, rfl, rfl, rfl, rfl, rfl, rfl, rfl, rfl, rfl, fun hle => by omega⟩

/-- The four bytes of word `j` are all the addresses with quotient `j`. -/
theorem div_ne_of_ne_byteOfWord {a : Nat} {j : Fin 16} (h : ∀ k : Fin 4, a ≠ (byteOfWord j k).val) : a / 4 ≠ j.val := by
  intro e
  refine h ⟨a % 4, Nat.mod_lt a (by decide)⟩ ?_
  simp only [byteOfWord]
  omega

/-- Settles O29: a performed store touches its bytes and their valid bits, a refused one takes the fault entry. -/
theorem frameOfBlockStores : Obligations.FrameOfBlockStores := by
  constructor
  · intro s u idx data h
    obtain ⟨n, v, hop, rfl⟩ | ⟨hop, rfl⟩ := exec_wrb_next h
    · refine ⟨fun m x hm => ?_, fun hno => ?_, rfl⟩
      · cases hop.symm.trans hm
        refine ⟨fun a ha => Memory.read_write_other s.B n.val v ha, fun k hk => ?_, rfl⟩
        simp [State.writeByte_validB, Ne.symm hk]
      · cases hop.symm.trans hno
    · exact ⟨(fun n v hsome => by cases hop.symm.trans hsome), fun _ => ⟨fun _ => rfl, rfl⟩, rfl⟩
  · intro s u idx v h
    obtain ⟨j, hop, rfl⟩ | ⟨hop, rfl⟩ := exec_wrw_next h
    · refine ⟨fun m hm => ?_, fun hno => ?_, rfl⟩
      · cases hop.symm.trans hm
        refine ⟨fun a ha => s.read_writeWord_other j v (div_ne_of_ne_byteOfWord ha), fun k hk => ?_, rfl⟩
        have hne : k.val / 4 ≠ j.val := div_ne_of_ne_byteOfWord fun l e => hk l (Fin.ext e)
        simp [State.writeWord_validB, hne]
      · cases hop.symm.trans hno
    · exact ⟨(fun j hsome => by cases hop.symm.trans hsome), fun _ => ⟨fun _ => rfl, rfl⟩, rfl⟩

/-- The states a micro-operation can answer. -/
theorem exec_micro_next {s u : State} {t : BitVec 7} {i : Instr} (h : exec i s = .next u)
    (hi : i ∈ [.parse, .sched t, .seed, .roundCh t, .roundPar1 t, .roundMaj t, .roundPar3 t, .fold]) :
    (i = .parse ∧ ∃ w, s.Parsed w ∧ u = ((s.setW w).clearBV).enter .sched 16) ∨
    (i = .sched t ∧ ∃ n : Fin 80, t.toNat = n.val ∧
      u = (s.setW (s.W.set n.val (scheduleWord s.W n))).advance n .sched .seed) ∨
    (i = .seed ∧ u = (s.setRegs s.H[0] s.H[1] s.H[2] s.H[3] s.H[4]).enter .round 0) ∨
    (i ∈ [.roundCh t, .roundPar1 t, .roundMaj t, .roundPar3 t] ∧ ∃ g n, u = s.roundStep g n) ∨
    (i = .fold ∧ u = (s.setH s.foldedH).enter .idle 0) := by
  have round : ∀ g, roundAt g t s = .next u → ∃ g n, u = s.roundStep g n := by
    intro g hg
    unfold roundAt at hg
    cases hn : roundIndex g t with
    | none => simp [hn] at hg
    | some n =>
      simp only [hn, Host.Outcome.next.injEq] at hg
      exact ⟨g, n, hg.symm⟩
  simp only [List.mem_cons, List.not_mem_nil, or_false] at hi
  obtain rfl | rfl | rfl | rfl | rfl | rfl | rfl | rfl := hi
  · obtain ⟨w, hw, he⟩ := exec_parse_next s
    cases h.symm.trans he
    exact .inl ⟨rfl, w, hw, rfl⟩
  · cases hop : schedIndex t with
    | none => simp [exec, execSched, hop] at h
    | some n =>
      obtain ⟨ht, hn⟩ := schedIndex_eq_some.1 hop
      cases h.symm.trans (exec_sched_next ht hn s)
      exact .inr (.inl ⟨rfl, n, ht, rfl⟩)
  · cases h
    exact .inr (.inr (.inl ⟨rfl, rfl⟩))
  · exact .inr (.inr (.inr (.inl ⟨by simp, round 0 h⟩)))
  · exact .inr (.inr (.inr (.inl ⟨by simp, round 1 h⟩)))
  · exact .inr (.inr (.inr (.inl ⟨by simp, round 2 h⟩)))
  · exact .inr (.inr (.inr (.inl ⟨by simp, round 3 h⟩)))
  · cases h
    exact .inr (.inr (.inr (.inr ⟨rfl, rfl⟩)))

/-- Settles O30: each micro-operation's answer is an update of the fields its rule writes. -/
theorem frameOfMicroOperations : Obligations.FrameOfMicroOperations := by
  intro s u t i h hi
  obtain ⟨rfl, w, hw, rfl⟩ | ⟨rfl, n, ht, rfl⟩ | ⟨rfl, rfl⟩ | ⟨hround, g, n, rfl⟩ | ⟨rfl, rfl⟩ := exec_micro_next h hi
  · refine ⟨fun _ => rfl, rfl, rfl, rfl, rfl, fun _ => rfl, fun hne => absurd rfl hne, fun k hk _ => ?_,
      fun _ => ⟨rfl, rfl, rfl, rfl, rfl⟩⟩
    exact hw.high k (Nat.not_lt.1 fun hlt => hk ⟨rfl, hlt⟩)
  · refine ⟨by simp, by simp, by simp, by simp, by simp, by simp, by simp, fun k _ hk => ?_, by simp⟩
    have hne : n.val ≠ k.val := fun e => hk ⟨rfl, e.symm.trans ht.symm⟩
    simp [Vector.getElem_set_ne, hne]
  · exact ⟨fun _ => rfl, rfl, rfl, rfl, rfl, fun _ => rfl, fun _ => rfl, fun _ _ _ => rfl, by simp⟩
  · refine ⟨by simp, by simp, by simp, by simp, by simp, by simp, by simp, by simp, fun hno => ?_⟩
    obtain rfl | rfl | rfl := hno <;> simp at hround
  · exact ⟨fun _ => rfl, rfl, rfl, rfl, rfl, fun hne => absurd rfl hne, fun _ => rfl, fun _ _ _ => rfl,
      fun _ => ⟨rfl, rfl, rfl, rfl, rfl⟩⟩

end Sys2Proof.Machine
end

section
/-! PROOFS. Stores made twice and read back (20_memory sections 2 and 4). -/

namespace Sys2Proof.Machine

/-! ## A store of what is held already -/

/-- Writing the byte that is read there leaves a canonical buffer as it is. -/
theorem Memory.write_eq_self {m : Memory} (hm : m.wf = true) (n : Fin 64) {v : Byte} (hv : m.read n.val = v) :
    m.write n.val v = m := by
  refine Memory.ext_of_wf (Memory.wf_write n v hm) hm fun k => ?_
  by_cases hk : k = n.val
  · rw [hk, Memory.read_write_same m n.val v hm, hv]
  · exact Memory.read_write_other m n.val v hk

/-- Setting a bit that is set changes nothing. -/
theorem or_twoPow_eq_self {w : Nat} {x : BitVec w} {i : Nat} (h : x.getLsbD i = true) : x ||| BitVec.twoPow w i = x := by
  apply BitVec.eq_of_getLsbD_eq
  intro k hk
  rw [BitVec.getLsbD_or, BitVec.getLsbD_twoPow]
  by_cases e : i = k
  · simp [← e, h]
  · simp [e]

theorem State.writeH_eq_self {s : State} {i : Fin 5} {v : Word} (hv : s.validH i = true) (hr : s.readH i = v) :
    s.writeH i v = s := by
  have hH : s.H.set i.val v = s.H := by
    rw [← hr]
    exact Vector.set_getElem_self i.isLt
  rw [State.writeH, hH, or_twoPow_eq_self hv]

theorem State.writeByte_eq_self {s : State} (hs : s.B.wf = true) {n : Fin 64} {v : Byte} (hv : s.validB n = true)
    (hr : s.readByte n = v) : s.writeByte n v = s := by
  rw [State.writeByte, Memory.write_eq_self hs n hr, or_twoPow_eq_self hv]

theorem State.writeWord_eq_self {s : State} (hs : s.B.wf = true) {j : Fin 16} {v : Word}
    (hv : ∀ k, s.validB (byteOfWord j k) = true)
    (hr : ∀ k : Fin 4, s.readByte (byteOfWord j k) = v.extractLsb' (24 - 8 * k.val) 8) : s.writeWord j v = s := by
  have byte (k : Fin 4) := State.writeByte_eq_self hs (hv k) (hr k)
  have h0 : s.writeByte (byteOfWord j 0) (v.extractLsb' 24 8) = s := byte 0
  have h1 : s.writeByte (byteOfWord j 1) (v.extractLsb' 16 8) = s := byte 1
  have h2 : s.writeByte (byteOfWord j 2) (v.extractLsb' 8 8) = s := byte 2
  have h3 : s.writeByte (byteOfWord j 3) (v.extractLsb' 0 8) = s := byte 3
  rw [State.writeWord, h0, h1, h2, h3]

/-- The bytes WRW stores, by their number in the word (R43). -/
theorem State.readByte_writeWord_byte (s : State) (j : Fin 16) (v : Word) (h : s.B.wf = true) (k : Fin 4) :
    (s.writeWord j v).readByte (byteOfWord j k) = v.extractLsb' (24 - 8 * k.val) 8 := by
  obtain ⟨h0, h1, h2, h3⟩ := State.readByte_writeWord s j v h
  fin_cases k
  · exact h0
  · exact h1
  · exact h2
  · exact h3

theorem byteOfWord_div (j : Fin 16) (k : Fin 4) : (byteOfWord j k).val / 4 = j.val := by
  simp only [byteOfWord]
  omega

/-! ## The same command again -/

/-- A second fault of the same cause adds its response and no more: the first has been recorded. -/
theorem State.faulted_faulted {c : Cause} (hc : c ≠ .noFault) (s : State) :
    (s.faulted c).faulted c =
      { s.faulted c with responses := (s.faulted c).responses ++ [c.code ++ (0 : Word)] } := by
  have hrec : (s.faulted c).fault ≠ .noFault := by
    rw [State.faulted_fault]
    split
    · exact hc
    · assumption
  rw [State.faulted, if_neg hrec]

theorem wrh_again {s u : State} {idx : BitVec 8} {data : Word} (h : exec (.wrh idx data) s = .next u) :
    ∃ r, exec (.wrh idx data) u = .next { u with responses := u.responses ++ [r] } := by
  obtain ⟨i, hi, rfl⟩ | ⟨hbad, rfl⟩ := exec_wrh_next h
  · have hread : (s.writeH i data).readH i = data := by rw [State.writeH_readH, if_pos rfl]
    rw [exec_wrh hi, State.writeH_eq_self (s := (s.writeH i data).answered 0) (by simp [State.writeH_validH]) hread]
    exact ⟨_, rfl⟩
  · rw [exec_wrh_badOperand hbad, State.faulted_faulted (by decide)]
    exact ⟨_, rfl⟩

theorem wrb_again {s u : State} {idx : BitVec 8} {data : Word} (hs : s.B.wf = true)
    (h : exec (.wrb idx data) s = .next u) :
    ∃ r, exec (.wrb idx data) u = .next { u with responses := u.responses ++ [r] } := by
  obtain ⟨n, v, hop, rfl⟩ | ⟨hop, rfl⟩ := exec_wrb_next h
  · obtain ⟨hn, hd, rfl⟩ := byteOperands_eq_some.1 hop
    rw [exec_wrb hn hd, State.writeByte_eq_self (s := (s.writeByte n _).answered 0) (s.wf_writeByte n _ hs)
      (by simp [State.writeByte_validB]) (s.readByte_writeByte_same n _ hs)]
    exact ⟨_, rfl⟩
  · rw [exec_wrb_badOperand (byteOperands_eq_none.1 hop), State.faulted_faulted (by decide)]
    exact ⟨_, rfl⟩

theorem wrw_again {s u : State} {idx : BitVec 8} {data : Word} (hs : s.B.wf = true)
    (h : exec (.wrw idx data) s = .next u) :
    ∃ r, exec (.wrw idx data) u = .next { u with responses := u.responses ++ [r] } := by
  obtain ⟨j, hop, rfl⟩ | ⟨hop, rfl⟩ := exec_wrw_next h
  · rw [exec_wrw (wordIndex_eq_some.1 hop), State.writeWord_eq_self (s := (s.writeWord j data).answered 0)
      (s.wf_writeWord j data hs) (fun k => by simp [State.writeWord_validB, byteOfWord_div])
      (s.readByte_writeWord_byte j data hs)]
    exact ⟨_, rfl⟩
  · rw [exec_wrw_badOperand (wordIndex_eq_none.1 hop), State.faulted_faulted (by decide)]
    exact ⟨_, rfl⟩

/-- `i` changes nothing but the responses, and `FAULT` where it answers a cause, and at once repeated it answers the same. -/
def AnswersAgain (i : Instr) (s u : State) : Prop :=
  ∃ (c : BitVec 3) (rdata : Word), u = { s with fault := u.fault, responses := s.responses ++ [c ++ rdata] } ∧
    (c = 0 → u.fault = s.fault) ∧ exec i u = .next { u with responses := u.responses ++ [c ++ rdata] }

theorem AnswersAgain.answered {i : Instr} {s : State} {r : Word}
    (h : exec i (s.answered r) = .next ((s.answered r).answered r)) : AnswersAgain i s (s.answered r) :=
  ⟨0, r, rfl, fun _ => rfl, h⟩

theorem AnswersAgain.faulted {i : Instr} {s : State} {c : Cause} (hc : c ≠ .noFault)
    (h : exec i (s.faulted c) = .next ((s.faulted c).faulted c)) : AnswersAgain i s (s.faulted c) :=
  ⟨c.code, 0, rfl, fun h0 => absurd (Cause.code_eq_zero_iff.1 h0) hc, by rw [h, State.faulted_faulted hc]⟩

theorem nop_again {s u : State} {idx : BitVec 8} {data : Word} (h : exec (.nop idx data) s = .next u) :
    AnswersAgain (.nop idx data) s u := by
  obtain ⟨rfl, rfl, rfl⟩ | ⟨hbad, rfl⟩ := exec_nop_next h
  · exact .answered (exec_nop _)
  · exact .faulted (by decide) (exec_nop_badOperand hbad _)

theorem rdh_again {s u : State} {idx : BitVec 8} {data : Word} (h : exec (.rdh idx data) s = .next u) :
    AnswersAgain (.rdh idx data) s u := by
  obtain ⟨i, hi, rfl, hv, rfl⟩ | ⟨i, hi, rfl, hv, rfl⟩ | ⟨hbad, rfl⟩ := exec_rdh_next h
  · exact .answered (exec_rdh hi hv)
  · exact .faulted (by decide) (exec_rdh_stateUninit hi hv)
  · exact .faulted (by decide) (exec_rdh_badOperand hbad _)

/-- Settles O31: the second store finds its value held and valid, and the second fault finds `FAULT` recorded. -/
theorem repeatedWriteLeavesTheSameState : Obligations.RepeatedWriteLeavesTheSameState := by
  constructor
  · intro s u idx data hs i hi h
    simp only [List.mem_cons, List.not_mem_nil, or_false] at hi
    obtain rfl | rfl | rfl := hi
    · exact wrh_again h
    · exact wrb_again hs h
    · exact wrw_again hs h
  · intro s u idx data i hi h
    simp only [List.mem_cons, List.not_mem_nil, or_false] at hi
    obtain rfl | rfl := hi
    · exact nop_again h
    · exact rdh_again h

/-! ## A byte stored into a word -/

/-- Settles O37: PARSE reads the stored word, and a WRB at one of its four addresses leaves the other three. -/
theorem wrwThenParseGivesTheWordBack : Obligations.WrwThenParseGivesTheWordBack := by
  intro s u idx j v hs hj h
  cases h.symm.trans (exec_wrw hj s)
  refine ⟨fun p k => parse_getElem_of_readWord (State.readWord_writeWord s j v hs), fun x bidx data k l hb hd hx => ?_⟩
  cases hx.symm.trans (exec_wrb (n := byteOfWord j k) hb hd _)
  have hwf : ((s.writeWord j v).answered 0).B.wf = true := s.wf_writeWord j v hs
  have hread := State.readByte_writeWord_byte s j v hs l
  split
  case isTrue e =>
    subst e
    exact State.readByte_writeByte_same _ _ _ hwf
  case isFalse e =>
    exact (State.readByte_writeByte_other _ _ _ (byteOfWord_ne j e)).trans hread

end Sys2Proof.Machine
end

section
/-! PROOFS. The rotator and the boolean functions bit by bit (40_datapath_functions R80 to R83), the step as the decoded
operation (00_scope R7), and the outputs (30_encoding R60). -/

namespace Sys2Proof.Machine

/-! ## Rotation -/

/-- For the amounts the spec admits, the rotator is the library's rotation. -/
theorem rotl_eq_rotateLeft (x : Word) {n : Nat} (hn : n ≤ 31) : rotl x n = x.rotateLeft n := by
  rw [BitVec.rotateLeft_def, Nat.mod_eq_of_lt (Nat.lt_succ_of_le hn)]
  rfl

/-- Bit `k` moves to place `(k + n) mod 32`: the low bits up by `n`, the high ones around to the bottom. -/
theorem getLsbD_rotl (x : Word) {n k : Nat} (hn : n ≤ 31) (hk : k ≤ 31) :
    (rotl x n).getLsbD ((k + n) % 32) = x.getLsbD k := by
  rw [rotl_eq_rotateLeft x hn, BitVec.getLsbD_rotateLeft, Nat.mod_eq_of_lt (show n < 32 by omega)]
  by_cases hwrap : k + n < 32
  · have hplace : (k + n) % 32 = k + n := Nat.mod_eq_of_lt hwrap
    simp [hplace, hwrap]
  · have hplace : (k + n) % 32 = k + n - 32 := by omega
    have hlow : k + n - 32 < n := by omega
    have hback : 32 - n + (k + n - 32) = k := by omega
    simp [hplace, hlow, hback]

/-- Two words are equal if their bits at the places a rotation takes them to are. -/
theorem rotl_eq_of_getLsbD {x y : Word} {n : Nat} (hn : n ≤ 31)
    (h : ∀ k, k ≤ 31 → x.getLsbD k = y.getLsbD ((k + n) % 32)) : rotl x n = y := by
  apply BitVec.eq_of_getLsbD_eq
  intro m hm
  have hplace : ((m + 32 - n) % 32 + n) % 32 = m := by omega
  have hbit := getLsbD_rotl x hn (k := (m + 32 - n) % 32) (by omega)
  rw [hplace] at hbit
  rw [hbit, h _ (by omega), hplace]

theorem rotl_zero (x : Word) : rotl x 0 = x :=
  rotl_eq_of_getLsbD (Nat.zero_le 31) fun k hk => by rw [Nat.add_zero, Nat.mod_eq_of_lt (Nat.lt_succ_of_le hk)]

/-- A rotation left by 30 is one to the right by 2 (40 section 1). -/
theorem rotl_thirty (x : Word) : rotl x 30 = (x >>> 2) ||| ((x &&& 3) <<< 30) := by
  have low_two : x <<< 30 = (x &&& 3) <<< 30 := by
    apply BitVec.eq_of_getLsbD_eq
    intro i hi
    have three : ∀ j, j < 2 → (3#32).getLsbD j = true := by decide
    by_cases h : i < 30
    · simp [h]
    · simp [hi, h, three (i - 30) (by omega)]
  rw [rotl, low_two, BitVec.or_comm]

/-- The shift formula: the two shifted numbers, cut to 32 bits. -/
theorem rotl_toNat (x : Word) (n : Nat) :
    (rotl x n).toNat = (x.toNat * 2 ^ n ||| x.toNat / 2 ^ (32 - n)) % 2 ^ 32 := by
  have hright : x.toNat / 2 ^ (32 - n) < 2 ^ 32 := Nat.lt_of_le_of_lt (Nat.div_le_self _ _) x.isLt
  rw [rotl, BitVec.toNat_or, BitVec.toNat_shiftLeft, BitVec.toNat_ushiftRight, Nat.or_mod_two_pow, Nat.shiftLeft_eq,
    Nat.shiftRight_eq_div_pow, Nat.mod_eq_of_lt hright]

theorem rotl_all_zero (n : Nat) : rotl 0 n = 0 := by simp [rotl]

theorem rotl_all_ones {n : Nat} (hn : n ≤ 31) : rotl 0xFFFFFFFF n = 0xFFFFFFFF := by
  have ones : ∀ k, k < 32 → (0xFFFFFFFF : Word).getLsbD k = true := by decide
  exact rotl_eq_of_getLsbD hn fun k hk => by rw [ones k (by omega), ones _ (Nat.mod_lt _ (by decide))]

/-- Settles O32: the rotation by bits, its two special amounts, the shift formula and the fixed points. -/
theorem rotlMovesEveryBitLeftAround : Obligations.RotlMovesEveryBitLeftAround :=
  ⟨fun x _ _ hn hk => getLsbD_rotl x hn hk, fun x => ⟨rotl_zero x, rotl_thirty x⟩, fun x n _ _ => rotl_toNat x n,
    fun n hn => ⟨rotl_all_zero n, rotl_all_ones hn⟩⟩

/-- Settles O33: each function is a bitwise one, so it is its truth table at every bit. -/
theorem booleanFunctionsBitByBit : Obligations.BooleanFunctionsBitByBit := by
  intro x y z k _
  simp only [ch, par, maj, BitVec.getLsbD_xor, BitVec.getLsbD_and]
  generalize x.getLsbD k = p
  generalize y.getLsbD k = q
  generalize z.getLsbD k = r
  revert p q r
  decide

/-! ## The step and the outputs -/

/-- Settles O7: the three ways a step is selected. -/
theorem stepRunsTheDecodedOperation : Obligations.StepRunsTheDecodedOperation :=
  ⟨fun _ _ _ hp ht hh => step_command hp ht hh, fun s _ h => step_micro (by rwa [decodeSeq_append] at h),
    fun _ hp ht hh => step_waiting hp ht hh⟩

@[simp] theorem Phase.code_eq_zero_iff {p : Phase} : p.code = 0 ↔ p = .idle := by
  cases p <;> decide

theorem Cause.code_toNat_le (c : Cause) : c.code.toNat ≤ 4 := by
  cases c <;> decide

theorem Phase.code_toNat_le (p : Phase) : p.code.toNat ≤ 5 := by
  cases p <;> decide

/-- Settles O52: the two outputs of the phase, the fault output, and the codes the types admit. -/
theorem outputsShowPhaseAndFault : Obligations.OutputsShowPhaseAndFault := by
  intro s
  refine ⟨?_, ?_, rfl, s.fault.code_toNat_le, s.phase.code_toNat_le⟩
  · rw [Phase.code_eq_zero_iff, State.cmdReady, decide_eq_true_iff]
  · simp [State.busy, State.cmdReady]

end Sys2Proof.Machine
end

section
/-! PROOFS. The block of 147 steps (43_driver sections 1, 2 and 4): the state after every number of steps, from the two loops of
Laws/Run, and the result against the reference function. -/

namespace Sys2Proof.Machine

/-! ## From PARSE to SEED -/

/-- PARSE and `m` SCHED steps. -/
theorem parse_sched_run {s : State} (hp : s.phase = .parse) (ht : s.t = 0) {m : Nat} (hm : m ≤ 64) :
    ∃ w : Vector Word 80, w.toList.take (16 + m) = (List.range' 16 m).foldl expandOne (parseBlock s.block) ∧
      stepN (1 + m) s = .next { s with W := w, BV := 0, phase := if m = 64 then .seed else .sched,
                                       t := if m = 64 then 0 else BitVec.ofNat 7 (16 + m) } := by
  obtain ⟨w, hw, hstep⟩ := step_parse hp ht
  obtain ⟨v, hv, hrun⟩ := sched_run (((s.setW w).clearBV).enter .sched 16) rfl rfl s.block hw.take m hm
  exact ⟨v, hv, stepN_add (stepN_one hstep) hrun⟩

/-- The state that enters SEED: the whole schedule, the block consumed. -/
def State.scheduled (s : State) (w : Vector Word 80) : State := { s with W := w, BV := 0, phase := .seed, t := 0 }

theorem scheduled_run {s : State} (hp : s.phase = .parse) (ht : s.t = 0) :
    ∃ w : Vector Word 80, w.toList = expand s.block ∧ stepN 65 s = .next (s.scheduled w) := by
  obtain ⟨w, hw, hrun⟩ := parse_sched_run hp ht (m := 64) (Nat.le_refl _)
  refine ⟨w, ?_, hrun⟩
  rwa [List.take_of_length_le (by simp)] at hw

/-! ## From SEED to IDLE -/

/-- The state in a round with schedule `w` and registers `r`. -/
def State.inRounds (s : State) (w : Vector Word 80) (r : Regs) (p : Phase) (t : BitVec 7) : State :=
  { s with W := w, BV := 0, a := r.a, b := r.b, c := r.c, d := r.d, e := r.e, phase := p, t := t }

/-- SEED and `m` ROUND steps leave the registers of the reference function. -/
theorem seed_round_run (s : State) (w : Vector Word 80) {m : Nat} (hm : m ≤ 80) :
    stepN (1 + m) (s.scheduled w) = .next (s.inRounds w
      ((List.range m).foldl (refRound w.toList) ⟨s.H[0], s.H[1], s.H[2], s.H[3], s.H[4]⟩)
      (if m = 80 then .fold else .round) (if m = 80 then 0 else BitVec.ofNat 7 m)) :=
  stepN_add (stepN_one (step_seed rfl rfl))
    (round_run (((s.scheduled w).setRegs s.H[0] s.H[1] s.H[2] s.H[3] s.H[4]).enter .round 0) rfl rfl m hm)

/-- The state after the block: `H` with the registers `r` folded in, the block consumed, and the schedule and the registers as
the block left them (notes/assumptions/8.md). -/
def State.compressed (s : State) (w : Vector Word 80) (r : Regs) : State :=
  { s with H := #v[s.H[0] + r.a, s.H[1] + r.b, s.H[2] + r.c, s.H[3] + r.d, s.H[4] + r.e],
           W := w, BV := 0, a := r.a, b := r.b, c := r.c, d := r.d, e := r.e, phase := .idle, t := 0 }

/-- FOLD, for any registers: where they are the 80 rounds' themselves, checking this would evaluate the rounds. -/
theorem step_inRounds_fold (s : State) (w : Vector Word 80) (r : Regs) :
    step (s.inRounds w r .fold 0) = .next (s.compressed w r) := step_fold rfl rfl

theorem scheduled_to_idle (s : State) (w : Vector Word 80) :
    stepN 82 (s.scheduled w) = .next (s.compressed w (refRounds s.H w.toList)) := by
  have hrun := seed_round_run s w (m := 80) (Nat.le_refl 80)
  rw [if_pos rfl, if_pos rfl] at hrun
  exact stepN_succ hrun (step_inRounds_fold s w _)

/-- The whole block: 147 steps from (PARSE, 0). -/
theorem block_run {s : State} (hp : s.phase = .parse) (ht : s.t = 0) :
    ∃ w : Vector Word 80, w.toList = expand s.block ∧ stepN 147 s = .next (s.compressed w (refRounds s.H w.toList)) := by
  obtain ⟨w, hw, hrun⟩ := scheduled_run hp ht
  refine ⟨w, hw, ?_⟩
  rw [show 147 = 65 + 82 from rfl]
  exact stepN_add hrun (scheduled_to_idle s w)

theorem State.compressed_H {s : State} {w : Vector Word 80} (hw : w.toList = expand s.block) :
    (s.compressed w (refRounds s.H w.toList)).H = compress1 s.H s.block := by
  rw [hw]
  rfl

/-! ## The block as a whole -/

/-- Settles O44: the run stops in one of the five phases, each loop's `t` counting its steps. -/
theorem blockTakes147Steps : Obligations.BlockTakes147Steps := by
  intro s hp ht n hn
  obtain rfl | ⟨m, hm, rfl⟩ | ⟨m, hm, rfl⟩ | rfl :
      n = 0 ∨ (∃ m, m ≤ 64 ∧ n = 1 + m) ∨ (∃ m, m ≤ 80 ∧ n = 65 + (1 + m)) ∨ n = 147 := by
    by_cases h0 : n = 0
    · exact .inl h0
    by_cases h1 : n ≤ 65
    · exact .inr (.inl ⟨n - 1, by omega, by omega⟩)
    by_cases h2 : n ≤ 146
    · exact .inr (.inr (.inl ⟨n - 66, by omega, by omega⟩))
    · exact .inr (.inr (.inr (by omega)))
  · exact ⟨s, rfl, by simp [hp]⟩
  · obtain ⟨w, -, hrun⟩ := parse_sched_run hp ht hm
    refine ⟨_, hrun, ?_⟩
    by_cases e : m = 64
    · simp [e]
    · simp [e]
      omega
  · obtain ⟨w, -, hrun⟩ := scheduled_run hp ht
    refine ⟨_, stepN_add hrun (seed_round_run s w hm), ?_⟩
    by_cases e : m = 80
    · simp [e, State.inRounds]
    · simp [e, State.inRounds]
      omega
  · obtain ⟨w, -, hrun⟩ := block_run hp ht
    exact ⟨_, hrun, by simp [State.compressed]⟩

/-- An accepted START and the block: 148 steps of the machine from an idle engine with all of `H` and `B` valid. -/
theorem start_block_run {s : State} {rest : List CmdWord} (hp : s.phase = .idle) (ht : s.t = 0) (hH : s.HV = fullHV)
    (hB : s.BV = fullBV) (hh : s.host = 0x50000000000 :: rest) :
    ∃ w : Vector Word 80, w.toList = expand s.block ∧
      stepN 148 s = .next ((State.answered { s with host := rest } 0).compressed w (refRounds s.H w.toList)) := by
  have hstart : step s = .next ((State.enter { s with host := rest } .parse 0).answered 0) := by
    rw [step_command hp ht hh, decodeCmd_eq_start_iff.2 rfl, exec_start_ready (s := { s with host := rest }) hH hB]
  obtain ⟨w, hw, hrun⟩ := block_run (s := (State.enter { s with host := rest } .parse 0).answered 0) rfl rfl
  refine ⟨w, hw, ?_⟩
  rw [show 148 = 1 + 147 from rfl]
  exact stepN_add (stepN_one hstart) hrun

/-- Settles O45: START is accepted, and the block's last state is read off field by field. -/
theorem blockTransactionIsCompress1 : Obligations.BlockTransactionIsCompress1 := by
  intro s rest hp ht hH hB hh
  obtain ⟨w, hw, hrun⟩ := start_block_run hp ht hH hB hh
  refine ⟨_, hrun, rfl, rfl, State.compressed_H (s := State.answered { s with host := rest } 0) hw, hH, rfl, rfl, rfl, rfl,
    hw, ?_⟩
  rw [← hw]
  rfl

/-- Settles O47: both runs end in the reference function's value, of the same `H` and the same block. -/
theorem blockResultDependsOnlyOnStateAndBlock : Obligations.BlockResultDependsOnlyOnStateAndBlock := by
  intro s u s' u' hsp hst hup hut hH hbytes hs hu
  obtain ⟨w, hw, hsrun⟩ := block_run hsp hst
  obtain ⟨v, hv, hurun⟩ := block_run hup hut
  cases hs.symm.trans hsrun
  cases hu.symm.trans hurun
  have hblock : s.block = u.block := congrArg Vector.ofFn (funext hbytes)
  rw [State.compressed_H hw, State.compressed_H hv, hH, hblock]

/-! ## Four rounds -/

/-- One ROUND step of the loop: where the sequencer goes and how the old registers move on (42 R111). -/
theorem step_round_moves {s : State} (hp : s.phase = .round) (ht : s.t.toNat ≤ 79) :
    ∃ u, step s = .next u ∧ u.b = s.a ∧ u.c = rotl s.b 30 ∧ u.d = s.c ∧ u.e = s.d ∧
      (s.t.toNat ≤ 78 → u.phase = .round ∧ u.t = s.t + 1 ∧ u.t.toNat = s.t.toNat + 1) ∧
      (s.t.toNat = 79 → u.phase = .fold ∧ u.t = 0) := by
  obtain ⟨k, hk⟩ : ∃ k : Fin 80, s.t.toNat = k.val := ⟨⟨s.t.toNat, Nat.lt_succ_of_le ht⟩, rfl⟩
  have moved := State.roundStep_eq hk (group k) s
  refine ⟨_, step_round hp k hk, by rw [moved], by rw [moved], by rw [moved], by rw [moved], fun hle => ?_, fun heq => ?_⟩
  · have hne : k.val ≠ 79 := by omega
    have hsucc : (s.t + 1).toNat = s.t.toNat + 1 := by
      rw [BitVec.toNat_add]
      exact Nat.mod_eq_of_lt (by simp; omega)
    simp only [moved, if_neg hne, hsucc, and_self]
  · simp only [moved, if_pos (hk.symm.trans heq), and_self]

/-- Settles O48: `a` moves to `b`, rotated to `c`, and on to `d` and `e`, one register a step. -/
theorem registerValueMovesThroughTheWindow : Obligations.RegisterValueMovesThroughTheWindow := by
  intro s hp ht
  obtain ⟨p, hsp, pb, pc, pd, pe, hpnext, -⟩ := step_round_moves hp (by omega)
  obtain ⟨pp, pt, ptn⟩ := hpnext (by omega)
  obtain ⟨q, hpq, qb, qc, qd, qe, hqnext, -⟩ := step_round_moves pp (by omega)
  obtain ⟨qp, qt, qtn⟩ := hqnext (by omega)
  obtain ⟨r, hqr, rb, rc, rd, re, hrnext, -⟩ := step_round_moves qp (by omega)
  obtain ⟨rp, rt, rtn⟩ := hrnext (by omega)
  obtain ⟨u, hru, ub, uc, ud, ue, hunext, hulast⟩ := step_round_moves rp (by omega)
  refine ⟨p, q, r, u, hsp, hpq, hqr, hru, pb, by rw [qc, pb], by rw [rd, qc, pb], by rw [ue, rd, qc, pb], ub, by rw [uc, rb],
    by rw [ud, rc, qb], fun hle => ?_, fun heq => hulast (by omega)⟩
  obtain ⟨hup, hut, -⟩ := hunext (by omega)
  refine ⟨hup, ?_⟩
  rw [hut, rt, qt, pt]
  simp only [BitVec.add_assoc]
  rfl

end Sys2Proof.Machine
end

section
/-! PROOFS. The loads LDSTATE, LDBLKB and LDBLKW (30_encoding R71): runs of commands that each store one value, in any order. -/

namespace Sys2Proof.Machine

/-! ## Runs of stores -/

/-- The host's side of the port set: the commands still to present and the responses given. -/
def State.withPort (s : State) (h : List CmdWord) (r : List RspWord) : State := { s with host := h, responses := r }

/-- A family of command words that are each performed by one store, which leaves the host's side and the sequencer alone. -/
structure Loader (ι : Type) where
  cmd : ι → CmdWord
  store : State → ι → State
  exec_cmd : ∀ i s, exec (decodeCmd (cmd i)) s = .next ((store s i).answered 0)
  store_port : ∀ s i h r, store (s.withPort h r) i = (store s i).withPort h r
  store_phase : ∀ s i, (store s i).phase = s.phase
  store_t : ∀ s i, (store s i).t = s.t

namespace Loader

variable {ι : Type} (L : Loader ι)

theorem foldl_port (is : List ι) (h : List CmdWord) (r : List RspWord) : ∀ s : State,
    is.foldl L.store (s.withPort h r) = (is.foldl L.store s).withPort h r := by
  induction is with
  | nil => exact fun _ => rfl
  | cons i is ih =>
    intro s
    rw [List.foldl_cons, List.foldl_cons, L.store_port, ih]

theorem step_store {s : State} {i : ι} {rest : List CmdWord} (hp : s.phase = .idle) (ht : s.t = 0)
    (hh : s.host = L.cmd i :: rest) : step s = .next ((L.store s i).withPort rest (s.responses ++ [0])) := by
  rw [step_command hp ht hh, L.exec_cmd]
  exact congrArg (fun u => Host.Outcome.next (State.answered u 0)) (L.store_port s i rest s.responses)

/-- From an idle engine that is presented the commands of `is`, one step a command makes their stores in order, each answered
with 0. -/
theorem run (is : List ι) (rest : List CmdWord) : ∀ s : State, s.phase = .idle → s.t = 0 →
    s.host = is.map L.cmd ++ rest →
      stepN is.length s = .next ((is.foldl L.store s).withPort rest (s.responses ++ List.replicate is.length 0)) := by
  induction is with
  | nil =>
    rintro s - - hh
    have hport : s = s.withPort rest (s.responses ++ []) := by
      rw [List.append_nil, ← show s.host = rest from hh]
      rfl
    exact congrArg Host.Outcome.next hport
  | cons i is ih =>
    intro s hp ht hh
    rw [List.length_cons, stepN, L.step_store hp ht hh]
    have hrest := ih ((L.store s i).withPort (is.map L.cmd ++ rest) (s.responses ++ [0])) ((L.store_phase s i).trans hp)
      ((L.store_t s i).trans ht) rfl
    rw [L.foldl_port] at hrest
    refine hrest.trans ?_
    simp [State.withPort, List.replicate_succ]

end Loader

/-- A permutation of the images is the images of a permutation. -/
theorem exists_map_of_perm_map {ι : Type} {f : ι → CmdWord} {l : List CmdWord} {is : List ι} (h : l.Perm (is.map f)) :
    ∃ js : List ι, l = js.map f ∧ js.Perm is := by
  obtain ⟨js, hl, hperm⟩ := (congrFun₂ (List.eq_map_comp_perm f) l is).mpr h
  exact ⟨js, hl, hperm⟩

/-- The commands of a pseudo-command, one for each element of its vector. -/
theorem zipIdx_map_eq {α β : Type} {n : Nat} (v : Vector α n) (f : α × Nat → β) :
    v.toList.zipIdx.map f = (List.finRange n).map fun i => f (v[i], i.val) := by
  apply List.ext_getElem <;> simp

/-! ## The three loads -/

theorem ofNat_eight_toNat {n : Nat} (h : n < 256) : (BitVec.ofNat 8 n).toNat = n := Nat.mod_eq_of_lt h

/-- LDSTATE: each command writes one state word. -/
def stateLoader (v : Vector Word 5) : Loader (Fin 5) where
  cmd i := commandWord 1 i.val v[i]
  store s i := s.writeH i v[i]
  exec_cmd i s := by
    have hd : decodeCmd (commandWord 1 i.val v[i]) = .wrh (BitVec.ofNat 8 i.val) v[i] := by
      simp [decodeCmd, commandWord]
    rw [hd, exec_wrh (ofNat_eight_toNat (by omega))]
  store_port _ _ _ _ := rfl
  store_phase _ _ := rfl
  store_t _ _ := rfl

/-- LDBLKB: each command writes one block byte. -/
def byteLoader (x : Vector Byte 64) : Loader (Fin 64) where
  cmd n := commandWord 3 n.val (x[n].setWidth 32)
  store s n := s.writeByte n x[n]
  exec_cmd n s := by
    have hd : decodeCmd (commandWord 3 n.val (x[n].setWidth 32)) = .wrb (BitVec.ofNat 8 n.val) (x[n].setWidth 32) := by
      simp [decodeCmd, commandWord]
    have hlow : (x[n].setWidth 32).setWidth 8 = x[n] := by simp
    have hle : (x[n].setWidth 32).toNat ≤ 0xFF := by
      have := x[n].isLt
      simp
      omega
    rw [hd, exec_wrb (ofNat_eight_toNat (by omega)) hle, hlow]
  store_port _ _ _ _ := rfl
  store_phase _ _ := rfl
  store_t _ _ := rfl

/-- LDBLKW: each command writes one block word. -/
def wordLoader (w : Vector Word 16) : Loader (Fin 16) where
  cmd j := commandWord 4 j.val w[j]
  store s j := s.writeWord j w[j]
  exec_cmd j s := by
    have hd : decodeCmd (commandWord 4 j.val w[j]) = .wrw (BitVec.ofNat 8 j.val) w[j] := by
      simp [decodeCmd, commandWord]
    rw [hd, exec_wrw (ofNat_eight_toNat (by omega))]
  store_port _ _ _ _ := rfl
  store_phase _ _ := rfl
  store_t _ _ := rfl

theorem ldState_eq (v : Vector Word 5) : ldState v = (List.finRange 5).map (stateLoader v).cmd :=
  zipIdx_map_eq v _

theorem ldBlkB_eq (x : Vector Byte 64) : ldBlkB x = (List.finRange 64).map (byteLoader x).cmd :=
  zipIdx_map_eq x _

theorem ldBlkW_eq (w : Vector Word 16) : ldBlkW w = (List.finRange 16).map (wordLoader w).cmd :=
  zipIdx_map_eq w _

/-! ## What the stores leave -/

/-- If each step of a fold keeps `I`, establishes `held` of its own element and keeps it of the others, the fold establishes it of
all its elements. -/
theorem foldl_establishes {σ ι : Type} {f : σ → ι → σ} {I : σ → Prop} {held : ι → σ → Prop} (hI : ∀ s i, I s → I (f s i))
    (hset : ∀ s i, I s → held i (f s i)) (hkeep : ∀ s i j, I s → held j s → held j (f s i)) (is : List ι) :
    ∀ s, I s → I (is.foldl f s) ∧ ∀ j, (j ∈ is ∨ held j s) → held j (is.foldl f s) := by
  induction is with
  | nil => exact fun s hs => ⟨hs, fun j hj => hj.resolve_left List.not_mem_nil⟩
  | cons i is ih =>
    intro s hs
    obtain ⟨hInv, hheld⟩ := ih (f s i) (hI s i hs)
    refine ⟨hInv, fun j hj => hheld j ?_⟩
    obtain hmem | hj := hj
    · obtain rfl | hmem := List.mem_cons.1 hmem
      · exact .inr (hset s j hs)
      · exact .inl hmem
    · exact .inr (hkeep s i j hs hj)

theorem eq_fullHV_of_validH {s : State} (h : ∀ i, s.validH i = true) : s.HV = fullHV := by
  apply BitVec.eq_of_getLsbD_eq
  intro i hi
  have full : ∀ i : Fin 5, fullHV.getLsbD i.val = true := by decide
  exact (h ⟨i, hi⟩).trans (full ⟨i, hi⟩).symm

theorem eq_fullBV_of_validB {s : State} (h : ∀ n, s.validB n = true) : s.BV = fullBV := by
  apply BitVec.eq_of_getLsbD_eq
  intro n hn
  have full : ∀ n : Fin 64, fullBV.getLsbD n.val = true := by decide
  exact (h ⟨n, hn⟩).trans (full ⟨n, hn⟩).symm

/-- All of LDSTATE's stores, in any order, leave the state words. -/
theorem stateLoader_foldl (v : Vector Word 5) {is : List (Fin 5)} (hall : ∀ i, i ∈ is) (s : State) :
    is.foldl (stateLoader v).store s = { s with H := v, HV := fullHV } := by
  have frame : ∀ (u : State) (i : Fin 5), u = { s with H := u.H, HV := u.HV } →
      u.writeH i v[i] = { s with H := (u.writeH i v[i]).H, HV := (u.writeH i v[i]).HV } := by
    intro u i hu
    rw [hu]
    rfl
  have sets : ∀ (u : State) (i : Fin 5), (u.writeH i v[i]).validH i = true ∧ (u.writeH i v[i]).readH i = v[i] :=
    fun u i => ⟨by simp [State.writeH_validH], by simp [State.writeH_readH]⟩
  have keeps : ∀ (u : State) (i j : Fin 5), u.validH j = true ∧ u.readH j = v[j] →
      (u.writeH i v[i]).validH j = true ∧ (u.writeH i v[i]).readH j = v[j] := by
    rintro u i j ⟨hv, hr⟩
    by_cases e : i = j
    · exact e ▸ sets u i
    · exact ⟨by simp [State.writeH_validH, hv], by simp [State.writeH_readH, e, hr]⟩
  obtain ⟨hframe, hheld⟩ := foldl_establishes (f := (stateLoader v).store) frame (fun u i _ => sets u i)
    (fun u i j _ => keeps u i j) is s rfl
  have hH : (is.foldl (stateLoader v).store s).H = v := Vector.ext fun i hi => (hheld ⟨i, hi⟩ (.inl (hall _))).2
  have hHV := eq_fullHV_of_validH fun i => (hheld i (.inl (hall i))).1
  rw [hframe, hH, hHV]

/-- `u` is `s` but for the block buffer, which is canonical. -/
def StoredFrom (s u : State) : Prop := u.B.wf = true ∧ u = { s with B := u.B, BV := u.BV }

/-- All of LDBLKB's stores, in any order, leave the block. -/
theorem byteLoader_foldl (x : Vector Byte 64) {ns : List (Fin 64)} (hall : ∀ n, n ∈ ns) {s : State} (hs : s.B.wf = true) :
    StoredFrom s (ns.foldl (byteLoader x).store s) ∧ (ns.foldl (byteLoader x).store s).block = x ∧
      (ns.foldl (byteLoader x).store s).BV = fullBV := by
  have frame : ∀ (u : State) (n : Fin 64), StoredFrom s u → StoredFrom s (u.writeByte n x[n]) := by
    rintro u n ⟨hwf, hu⟩
    refine ⟨u.wf_writeByte n _ hwf, ?_⟩
    rw [hu]
    rfl
  have sets : ∀ (u : State) (n : Fin 64), StoredFrom s u →
      (u.writeByte n x[n]).validB n = true ∧ (u.writeByte n x[n]).readByte n = x[n] :=
    fun u n ⟨hwf, _⟩ => ⟨by simp [State.writeByte_validB], u.readByte_writeByte_same n _ hwf⟩
  have keeps : ∀ (u : State) (n m : Fin 64), StoredFrom s u → u.validB m = true ∧ u.readByte m = x[m] →
      (u.writeByte n x[n]).validB m = true ∧ (u.writeByte n x[n]).readByte m = x[m] := by
    rintro u n m hu ⟨hv, hr⟩
    by_cases e : n = m
    · exact e ▸ sets u n hu
    · exact ⟨by simp [State.writeByte_validB, hv], (u.readByte_writeByte_other n _ (Ne.symm e)).trans hr⟩
  obtain ⟨hframe, hheld⟩ := foldl_establishes (f := (byteLoader x).store) frame sets keeps ns s ⟨hs, rfl⟩
  refine ⟨hframe, Vector.ext fun n hn => ?_, eq_fullBV_of_validB fun n => (hheld n (.inl (hall n))).1⟩
  rw [State.block, Vector.getElem_ofFn]
  exact (hheld ⟨n, hn⟩ (.inl (hall _))).2

/-! ## Words as bytes -/

/-- Byte `k` of word `j` of a block loaded by words (20_memory R41). -/
theorem words_block_byte (w : Vector Word 16) (j : Fin 16) (k : Fin 4) :
    (BlockLoad.words w).block[byteOfWord j k] = w[j].extractLsb' (24 - 8 * k.val) 8 := by
  have hdiv : (4 * j.val + k.val) / 4 = j.val := byteOfWord_div j k
  have hmod : (4 * j.val + k.val) % 4 = k.val := by omega
  simp [BlockLoad.block, byteOfWord, hdiv, hmod]

/-- The addresses of the bytes of block word `j`, in order. -/
def bytesOfWord (j : Fin 16) : List (Fin 64) := [byteOfWord j 0, byteOfWord j 1, byteOfWord j 2, byteOfWord j 3]

/-- WRW is the four WRBs of its bytes (R43). -/
theorem wordLoader_store_eq (w : Vector Word 16) (s : State) (j : Fin 16) :
    (wordLoader w).store s j = (bytesOfWord j).foldl (byteLoader (BlockLoad.words w).block).store s := by
  simp only [wordLoader, byteLoader, bytesOfWord, List.foldl_cons, List.foldl_nil, words_block_byte]
  rfl

theorem wordLoader_foldl_eq (w : Vector Word 16) (js : List (Fin 16)) (s : State) :
    js.foldl (wordLoader w).store s = (js.flatMap bytesOfWord).foldl (byteLoader (BlockLoad.words w).block).store s := by
  rw [List.foldl_flatMap, funext₂ (wordLoader_store_eq w)]

theorem mem_flatMap_bytesOfWord {js : List (Fin 16)} (hall : ∀ j, j ∈ js) (n : Fin 64) : n ∈ js.flatMap bytesOfWord := by
  have every : ∀ n : Fin 64, ∃ j, n ∈ bytesOfWord j := by decide
  obtain ⟨j, hj⟩ := every n
  exact List.mem_flatMap.2 ⟨j, hall j, hj⟩

/-- PARSE's words of a block loaded by words are those words. -/
theorem parseBlock_words (w : Vector Word 16) : parseBlock (BlockLoad.words w).block = w.toList := by
  apply List.ext_getElem
  · simp [parseBlock]
  · intro j h1 h2
    have hj : j < 16 := by simpa [parseBlock] using h1
    have byte : ∀ k : Fin 4, (BlockLoad.words w).block.getD (4 * j + k.val) 0 =
        (w[j]'hj).extractLsb' (24 - 8 * k.val) 8 := by
      intro k
      have hn : 4 * j + k.val < 64 := (byteOfWord ⟨j, hj⟩ k).isLt
      have hget : (BlockLoad.words w).block.getD (4 * j + k.val) 0 = (BlockLoad.words w).block[4 * j + k.val] := by
        simp [Vector.getD, hn]
      exact hget.trans (words_block_byte w ⟨j, hj⟩ k)
    simp only [parseBlock, List.getElem_map, List.getElem_range, Vector.getElem_toList]
    exact (congr (congr (congr (congrArg be32 (byte 0)) (byte 1)) (byte 2)) (byte 3)).trans (be32_extract _)

/-- Either form of load, its commands in any order, leaves its block in the buffer, all bytes valid. -/
theorem blockLoad_run {s : State} {b : BlockLoad} {l rest : List CmdWord} (hp : s.phase = .idle) (ht : s.t = 0)
    (hs : s.B.wf = true) (hh : s.host = l ++ rest) (hl : l.Perm b.commands) :
    ∃ u : State, StoredFrom s u ∧ u.block = b.block ∧ u.BV = fullBV ∧
      stepN l.length s = .next (u.withPort rest (s.responses ++ List.replicate l.length 0)) := by
  cases b with
  | bytes x =>
    rw [BlockLoad.commands, ldBlkB_eq] at hl
    obtain ⟨ns, rfl, hns⟩ := exists_map_of_perm_map hl
    obtain ⟨hframe, hblock, hBV⟩ := byteLoader_foldl x (fun n => hns.mem_iff.2 (List.mem_finRange n)) hs
    rw [List.length_map]
    exact ⟨_, hframe, hblock, hBV, (byteLoader x).run ns rest s hp ht hh⟩
  | words w =>
    rw [BlockLoad.commands, ldBlkW_eq] at hl
    obtain ⟨js, rfl, hjs⟩ := exists_map_of_perm_map hl
    obtain ⟨hframe, hblock, hBV⟩ := byteLoader_foldl (BlockLoad.words w).block
      (mem_flatMap_bytesOfWord fun j => hjs.mem_iff.2 (List.mem_finRange j)) hs
    rw [List.length_map]
    refine ⟨_, hframe, hblock, hBV, ?_⟩
    rw [← wordLoader_foldl_eq]
    exact (wordLoader w).run js rest s hp ht hh

theorem ldState_run {s : State} {v : Vector Word 5} {l rest : List CmdWord} (hp : s.phase = .idle) (ht : s.t = 0)
    (hh : s.host = l ++ rest) (hl : l.Perm (ldState v)) :
    stepN l.length s = .next
      { s with H := v, HV := fullHV, host := rest, responses := s.responses ++ List.replicate l.length 0 } := by
  rw [ldState_eq] at hl
  obtain ⟨is, rfl, his⟩ := exists_map_of_perm_map hl
  have hfold := stateLoader_foldl v (fun i => his.mem_iff.2 (List.mem_finRange i)) s
  rw [List.length_map, (stateLoader v).run is rest s hp ht hh, hfold]
  rfl

/-- Settles O54: the stores of a load set every word or byte, each to the one value its load names, in whatever order. -/
theorem loadsInAnyOrderFillStateAndBlock : Obligations.LoadsInAnyOrderFillStateAndBlock := by
  refine ⟨fun s v l rest hp ht hh hl => ldState_run hp ht hh hl, fun s b l rest hp ht hs hh hl => ?_, parseBlock_words⟩
  obtain ⟨u, ⟨-, hu⟩, hblock, hBV, hrun⟩ := blockLoad_run hp ht hs hh hl
  refine ⟨_, hrun, hblock, hBV, ?_⟩
  rw [State.withPort, hu]

end Sys2Proof.Machine
end

section
/-! PROOFS. The pseudo-command COMPRESS (43_driver section 3): LDSTATE, one load and START a block, RDSTATE. -/

namespace Sys2Proof.Machine

/-- What stands between two of its parts: an idle engine with all of `H` valid and a canonical buffer, its state words, what the
host has still to present, the responses given, and `FAULT`. -/
structure State.IdleAt (s : State) (h : Vector Word 5) (host : List CmdWord) (r : List RspWord) (f : Cause) : Prop where
  phase : s.phase = .idle
  t : s.t = 0
  wf : s.B.wf = true
  H : s.H = h
  HV : s.HV = fullHV
  host : s.host = host
  responses : s.responses = r
  fault : s.fault = f

variable {f : Cause}

/-- LDSTATE, from an idle engine with any registers. -/
theorem ldState_idleAt {s : State} {v : Vector Word 5} {rest : List CmdWord} (hp : s.phase = .idle) (ht : s.t = 0)
    (hs : s.B.wf = true) (hh : s.host = ldState v ++ rest) :
    ∃ u, stepN (ldState v).length s = .next u ∧
      u.IdleAt v rest (s.responses ++ List.replicate (ldState v).length 0) s.fault :=
  ⟨_, ldState_run hp ht hh (List.Perm.refl _), hp, ht, hs, rfl, rfl, rfl, rfl, rfl⟩

/-- The load of a block, in either form. -/
theorem load_run {s : State} {h : Vector Word 5} {b : BlockLoad} {rest : List CmdWord} {r : List RspWord}
    (hs : s.IdleAt h (b.commands ++ rest) r f) :
    ∃ u, stepN b.commands.length s = .next u ∧ u.block = b.block ∧ u.BV = fullBV ∧
      u.IdleAt h rest (r ++ List.replicate b.commands.length 0) f := by
  obtain ⟨u, ⟨hwf, hu⟩, hblock, hBV, hrun⟩ := blockLoad_run hs.phase hs.t hs.wf hs.host (List.Perm.refl _)
  have fields : u.phase = s.phase ∧ u.t = s.t ∧ u.H = s.H ∧ u.HV = s.HV ∧ u.fault = s.fault := by
    rw [hu]
    exact ⟨rfl, rfl, rfl, rfl, rfl⟩
  obtain ⟨hp, ht, hH, hHV, hf⟩ := fields
  exact ⟨_, hrun, hblock, hBV, hp.trans hs.phase, ht.trans hs.t, hwf, hH.trans hs.H, hHV.trans hs.HV, rfl,
    congrArg (· ++ List.replicate b.commands.length 0) hs.responses, hf.trans hs.fault⟩

/-- COMPRESS1: the block is loaded, START accepted and the block processed, one response 0 a command. -/
theorem compress1_run {s : State} {h : Vector Word 5} {b : BlockLoad} {rest : List CmdWord} {r : List RspWord}
    (hs : s.IdleAt h (compress1Commands b ++ rest) r f) :
    ∃ u, stepN ((compress1Commands b).length + 147) s = .next u ∧ u.BV = 0 ∧
      u.IdleAt (compress1 h b.block) rest (r ++ List.replicate (compress1Commands b).length 0) f := by
  rw [compress1Commands, List.append_assoc] at hs
  obtain ⟨p, hload, hblock, hBV, hp⟩ := load_run hs
  obtain ⟨w, hw, hstart⟩ := start_block_run hp.phase hp.t hp.HV hBV hp.host
  have hlen : (compress1Commands b).length = b.commands.length + 1 := List.length_append
  have hH := State.compressed_H (s := State.answered { p with host := rest } 0) hw
  refine ⟨_, Eq.trans ?_ (stepN_add hload hstart), rfl, rfl, rfl, hp.wf, hH.trans ?_, hp.HV, rfl, ?_, hp.fault⟩
  · rw [hlen, Nat.add_assoc]
  · exact congr (congrArg compress1 hp.H) hblock
  · rw [hlen, List.replicate_succ', ← List.append_assoc, ← hp.responses]
    rfl

/-- COMPRESS1 of each block in turn folds the blocks into `H`. -/
theorem compress1s_run {rest : List CmdWord} (bs : List BlockLoad) : ∀ {s : State} {h : Vector Word 5} {r : List RspWord},
    s.IdleAt h ((bs.map compress1Commands).flatten ++ rest) r f →
    ∃ u, stepN ((bs.map compress1Commands).flatten.length + 147 * bs.length) s = .next u ∧
      (bs ≠ [] ∨ s.BV = 0 → u.BV = 0) ∧
      u.IdleAt (compress h (bs.map BlockLoad.block)) rest
        (r ++ List.replicate (bs.map compress1Commands).flatten.length 0) f := by
  induction bs with
  | nil =>
    intro s h r hs
    refine ⟨s, rfl, fun hBV => hBV.resolve_left fun hne => hne rfl, ?_⟩
    rw [show r ++ List.replicate ((List.map compress1Commands []).flatten.length) 0 = r from List.append_nil r]
    exact hs
  | cons b bs ih =>
    intro s h r hs
    rw [List.map_cons, List.flatten_cons, List.append_assoc] at hs
    obtain ⟨p, hfirst, hpBV, hp⟩ := compress1_run hs
    obtain ⟨u, hrest, huBV, hu⟩ := ih hp
    refine ⟨u, ?_, fun _ => huBV (.inr hpBV), ?_⟩
    · have hcount : ((b :: bs).map compress1Commands).flatten.length + 147 * (b :: bs).length =
          ((compress1Commands b).length + 147) + ((bs.map compress1Commands).flatten.length + 147 * bs.length) := by
        rw [List.map_cons, List.flatten_cons, List.length_append, List.length_cons]
        omega
      rw [hcount]
      exact stepN_add hfirst hrest
    · rw [List.append_assoc, ← List.replicate_add] at hu
      rwa [List.map_cons, List.map_cons, List.flatten_cons, List.length_append]

/-- RDSTATE: each RDH answers its word, all of them valid. -/
theorem reads_run {rest : List CmdWord} {h : Vector Word 5} (is : List (Fin 5)) : ∀ {s : State} {r : List RspWord},
    s.IdleAt h (is.map (fun i => commandWord 2 i.val 0) ++ rest) r f →
    ∃ u, stepN is.length s = .next u ∧ u.BV = s.BV ∧
      u.IdleAt h rest (r ++ is.map fun i => (0 : BitVec 3) ++ h[i]) f := by
  induction is with
  | nil =>
    intro s r hs
    refine ⟨s, rfl, rfl, ?_⟩
    rw [List.map_nil, List.append_nil]
    exact hs
  | cons i is ih =>
    intro s r hs
    have hd : decodeCmd (commandWord 2 i.val 0) = .rdh (BitVec.ofNat 8 i.val) 0 := by simp [decodeCmd, commandWord]
    have hstep : step s = .next
        (State.answered { s with host := is.map (fun i => commandWord 2 i.val 0) ++ rest } (s.readH i)) := by
      rw [step_command hs.phase hs.t hs.host, hd]
      exact exec_rdh (ofNat_eight_toNat (by omega)) (validH_of_full hs.HV i)
    obtain ⟨u, hrun, hBV, hu⟩ := ih (s := State.answered { s with host := _ } (s.readH i))
      (r := r ++ [(0 : BitVec 3) ++ h[i]])
      ⟨hs.phase, hs.t, hs.wf, hs.H, hs.HV, rfl, by rw [State.answered_responses, hs.responses, State.readH, hs.H], hs.fault⟩
    refine ⟨u, ?_, hBV, ?_⟩
    · rw [List.length_cons, stepN, hstep]
      exact hrun
    · rwa [List.append_assoc] at hu

theorem finRange_map_eq {α β : Type} {n : Nat} (v : Vector α n) (g : α → β) :
    (List.finRange n).map (fun i => g v[i]) = v.toList.map g := by
  apply List.ext_getElem <;> simp

theorem rdState_eq : rdState = (List.finRange 5).map fun i => commandWord 2 i.val 0 := by decide

/-- Settles O46: the three parts run one after the other. -/
theorem compressCommandsFoldTheBlocks : Obligations.CompressCommandsFoldTheBlocks := by
  intro s v bs rest hp ht hs hh
  have hhost : s.host = ldState v ++ ((bs.map compress1Commands).flatten ++ (rdState ++ rest)) := by
    rw [hh, compressCommands, List.append_assoc, List.append_assoc]
  obtain ⟨p, hload, hpAt⟩ := ldState_idleAt hp ht hs hhost
  obtain ⟨q, hblocks, hqBV, hqAt⟩ := compress1s_run bs hpAt
  rw [rdState_eq] at hqAt
  obtain ⟨u, hread, huBV, hu⟩ := reads_run (List.finRange 5) hqAt
  have hcount : (compressCommands v bs).length + 147 * bs.length =
      (ldState v).length + (((bs.map compress1Commands).flatten.length + 147 * bs.length) + (List.finRange 5).length) := by
    rw [compressCommands, List.length_append, List.length_append, rdState_eq, List.length_map]
    omega
  have hloads : (ldState v).length = 5 := by rw [ldState_eq, List.length_map, List.length_finRange]
  have hsum : (bs.map compress1Commands).flatten.length = (bs.map fun b => (compress1Commands b).length).sum := by
    rw [List.length_flatten, List.map_map]
    rfl
  refine ⟨u, ?_, hu.phase, hu.t, hu.host, hu.H, hu.HV, hu.fault, fun hne => huBV.trans (hqBV (.inl hne)), ?_⟩
  · rw [hcount]
    exact stepN_add hload (stepN_add hblocks hread)
  · rw [hu.responses, hloads, hsum, List.append_assoc s.responses, ← List.replicate_add]
    exact congrArg _ (finRange_map_eq (compress v (bs.map BlockLoad.block)) fun h => (0 : BitVec 3) ++ h)

end Sys2Proof.Machine
end
